-- ==== Sys2Proof/Word.lean ====
section
/-! DEFINITION. The word types of the unit (rules R6, R38, R73). Every value is unsigned (rule R8). -/

namespace Sys2Proof

/-- A byte: the document's "raw byte" (rule R6). -/
abbrev Byte := BitVec 8

/-- The 11-bit command word on the port `cmd_word[10:0]` (rule R38). -/
abbrev CommandWord := BitVec 11

/-- The 32-bit result of the ROM size decoder (rules R6, R73). -/
abbrev SizeWord := BitVec 32

end Sys2Proof
end

