-- ==== Sys2Proof/Syntax.lean ====
section
/-! DEFINITION. What the unit can be asked to do: one constructor of `Instr` per row of
spec/opcode_table.json, the two encoded formats, what the host presents at the ports, the thirteen
header fields, and the lines of the trace notation. -/

namespace Sys2Proof

/-- One constructor per row of the opcode table. The first five are the host's commands (format
CMD, rule R39). The other sixteen are the rows of format RSC (rules R44, R69, R70): the byte
`HDR[0x48]` read as a ROM size code, which the unit decodes whenever the ports `rom_size_bytes` and
`rom_size_known` are sampled. An operand of a fallback row is the row's free low bits, so every term
is an encodable instruction. -/
inductive Instr where
  | nop                                    -- `000xxxxxxxx`
  | start                                  -- `001xxxxxxxx`
  | push (data : Byte)                     -- `010dddddddd`
  | endStream                              -- `011xxxxxxxx`, mnemonic END
  | abort                                  -- `100xxxxxxxx`
  | romsize0                               -- `00000000`
  | romsize1                               -- `00000001`
  | romsize2                               -- `00000010`
  | romsize3                               -- `00000011`
  | romsize4                               -- `00000100`
  | romsize5                               -- `00000101`
  | romsize6                               -- `00000110`
  | romsize7                               -- `00000111`
  | romsize8                               -- `00001000`
  | romsizeFallback0                       -- `00001001`
  | romsizeFallback1 (c : BitVec 1)        -- `0000101c`
  | romsizeFallback2 (c : BitVec 2)        -- `000011cc`
  | romsizeFallback3 (c : BitVec 4)        -- `0001cccc`
  | romsizeFallback4 (c : BitVec 5)        -- `001ccccc`
  | romsizeFallback5 (c : BitVec 6)        -- `01cccccc`
  | romsizeFallback6 (c : BitVec 7)        -- `1ccccccc`
  deriving DecidableEq, Repr

/-- The two encoded formats of the opcode table: a command word (rule R38) and a ROM size code
(rule R44). They come from different places, the command port and `HDR[0x48]`, so they never
compete for one decoding. -/
inductive EncodedWord where
  | cmd (w : CommandWord)
  | rsc (code : Byte)
  deriving DecidableEq, Repr

/-- Why a word decodes to no instruction. -/
inductive DecodeError where
  /-- `cmd` is 5, 6 or 7: reserved, no meaning (rule R41). -/
  | reservedCommand (cmd : BitVec 3)
  deriving DecidableEq, Repr

/-- A row's fixed bits, as the opcode table writes them: the instruction's words are those `w` with
`w AND mask = bits`. -/
structure TableRow where
  width : Nat
  bits : Nat
  mask : Nat
  deriving DecidableEq, Repr

/-- One interaction of the host with the unit (rule R98). -/
inductive PortInput where
  /-- One rising edge of `clk` with the reset input and the command word as given (rules R38, R94). -/
  | edge (rst : Bool) (word : CommandWord)
  /-- The host samples the two ports of the ROM size decoder (rules R72, R73). No clock edge:
  "reading a port is not a step" of the unit (rule R49). -/
  | sampleRomSize
  deriving DecidableEq, Repr, Inhabited

/-- The thirteen fields of the header record, in order (rule R42). -/
inductive HeaderField where
  | entryPoint | bootLogo | title | newLicenseeCode | sgbFlag | cartridgeType | romSizeCode
  | ramSizeCode | destinationCode | oldLicenseeCode | romVersion | headerChecksum | globalChecksum
  deriving DecidableEq, Repr

/-- A line of the trace notation (rule R47) or a pseudo-command of it (rule R48). -/
inductive TraceLine where
  | nop | start | push (b : Byte) | endStream | abort
  | reset
  | pushN (n : Nat) (b : Byte)
  | pushB (bs : List Byte)
  | stream (image : List Byte)
  | load (image : List Byte)
  | wait (n : Nat)
  deriving DecidableEq, Repr

end Sys2Proof
end

