-- ==== Sys2Proof/Config.lean ====
section
/-! DEFINITION. The constants of rule R5, each under the spec's own name, and the one free value of
the model: what the host presents when nothing is scheduled. -/

namespace Sys2Proof.Config

/-- `HEADER_BASE`: byte offset of the first header byte in the cartridge image (rule R5). -/
def headerBase : Nat := 0x100

/-- `HEADER_WIDTH`: bytes in the header record, 80 and not 76 (rule R5, conflict C1). -/
def headerWidth : Nat := 0x50

/-- `HEADER_END = HEADER_BASE + HEADER_WIDTH` (rule R5). -/
def headerEnd : Nat := headerBase + headerWidth

/-- `CK_FIRST`: first offset of the checksum range (rules R5, R62). -/
def ckFirst : Nat := 0x134

/-- `CK_LAST`: last offset of the checksum range, inclusive (rules R5, R62, conflict C2). -/
def ckLast : Nat := 0x14C

/-- `CK_COUNT = CK_LAST - CK_FIRST + 1` (rule R5). -/
def ckCount : Nat := ckLast - ckFirst + 1

/-- `CK_INIT`: start value of the accumulator (rule R5). -/
def ckInit : Byte := 0#8

/-- `RSZ_UNIT`: 32 KiB, the size for code 0 and the fallback size (rule R5). -/
def rszUnit : SizeWord := 32768#32

/-- `RSZ_MAX_CODE`: the largest recognised `rom_size_code` (rule R5). -/
def rszMaxCode : Nat := 8

/-- DESIGN CHOICE (log entry 2), safe for one unit. A free value: the `n`-th input of a host whose
inputs are not written down in the state. It has no body, so a statement about a step with nothing
scheduled holds for every host. DESIGN CHOICE (log entry 10), unsafe for several units: it is one
function for all of them. -/
opaque hostInput : Nat → PortInput

end Sys2Proof.Config
end

