-- ==== Sys2Proof/Machine/State.lean ====
section
/-! DEFINITION. The state of the machine as plain data: the five elements of rule R10, and the
model's own record of the host. Reset, the reasons a step can stop, and what a fetch can find. -/

namespace Sys2Proof.Machine

/-- `PHASE`: five values; 5 to 7 are unreachable and not in the type (rule R13, U5). -/
inductive Phase where
  | idle      -- 0: reset has happened, no load has begun
  | skip      -- 1: the bytes at offsets [0, 0x100) are passing and are dropped
  | capture   -- 2: the bytes at offsets [0x100, 0x150) are being written to `HDR`
  | done      -- 3: all 80 header bytes are in `HDR`
  | error     -- 4: the load failed
  deriving DecidableEq, Repr

/-- `CAUSE`: three values; 3 is never written and not in the type (rule R14, U5). -/
inductive Cause where
  | none          -- 0
  | seek          -- 1: the stream is too short to contain a header
  | streamRead    -- 2: the stream's source failed
  deriving DecidableEq, Repr

/-- `HDR`: 80 registers of 8 bits, no banks and none hard-wired (rule R11). -/
abbrev HeaderFile := Vector Byte 80

/-- `OFS`: 9 bits, 0 to `HEADER_END` = 0x150; larger values are not in the type (rule R12, U5). -/
abbrev Offset := Fin 0x151

/-- What the host got by sampling the two ports of the ROM size decoder (rules R72, R73). -/
structure RomSizeSample where
  bytes : SizeWord
  known : Bool
  deriving DecidableEq, Repr

/-- The whole state. The first five fields are the unit's (rule R10: "There is no other state").
The last three are the model's record of the host, which rule R22 counts among the parameters of a
run: what the host presents next, how much of the free host was used, and what it last sampled. -/
structure State where
  /-- `HDR[0..79]` (rule R11). -/
  hdr : HeaderFile
  /-- `OFS` (rule R12). -/
  ofs : Offset
  /-- `PHASE` (rule R13). -/
  phase : Phase
  /-- `CAUSE` (rule R14). -/
  cause : Cause
  /-- `ACC` (rule R15). -/
  acc : Byte
  /-- DESIGN CHOICE (log entry 2): what the host presents in the next steps, oldest first. -/
  inputs : List PortInput
  /-- DESIGN CHOICE (log entry 2): how many inputs were taken from `Config.hostInput`. -/
  drawn : Nat
  /-- DESIGN CHOICE (log entry 3): what the last sampling of the decoder's ports gave; absent where
  the ports were undefined. -/
  romSample : Option RomSizeSample
  deriving DecidableEq, Repr

/-- The machine's one fault. -/
inductive Fault where
  /-- Raised by PUSH alone, in a state no run reaches (rule R18): `PHASE` is SKIP with `OFS` at or
  above 0x100, or `PHASE` is CAPTURE with `OFS` outside [0x100, 0x14F], where `HDR[OFS - 0x100]` is
  no register. Log entry 4. Safe: the machine stops where the spec states nothing. -/
  | offsetOutsidePhase (phase : Phase) (ofs : Nat)
  deriving DecidableEq, Repr

/-- Why a step has no meaning. -/
inductive Refusal where
  /-- Raised by `exec` for an instruction the model has no meaning for yet. No arm uses it. Safe. -/
  | notModelled (mnemonic : String)
  /-- Raised by `step` when the host presents a command word with `cmd` 5, 6 or 7, "reserved. The
  host must never issue one" (rule R41, U2). Safe: "a model refuses". -/
  | reservedCommand (word : CommandWord)
  deriving DecidableEq, Repr

/-- What a step finds at the ports: the reset input, an instruction, or a reserved command word. -/
inductive Fetched where
  | reset
  | instr (i : Instr)
  | reserved (word : CommandWord)
  deriving DecidableEq, Repr

/-- The state right after a reset step, with the header registers at `h`: "a model takes the initial
`HDR` as an arbitrary argument" (rules R21, R95, U3). -/
def State.resetWith (h : HeaderFile) : State where
  hdr := h
  ofs := 0
  phase := .idle
  cause := .none
  acc := Config.ckInit
  inputs := []
  drawn := 0
  romSample := none

/-- DESIGN CHOICE (log entry 1), unsafe. The header registers hold 0x00 after reset; the spec gives
them no reset value. -/
def State.reset : State := State.resetWith (Vector.replicate 80 0#8)

end Sys2Proof.Machine
end

