-- ==== Sys2Proof/Machine/Operands.lean ====
section
/-! DEFINITION. How operands are read: the layout of the header record (rules R42, R76), reading a
header register, and the offset arithmetic (rules R8, R12, R57). -/

namespace Sys2Proof

/-- The number of bytes of a field (rule R42). -/
def HeaderField.width : HeaderField → Nat
  | .entryPoint => 4
  | .bootLogo => 48
  | .title => 16
  | .newLicenseeCode => 2
  | .sgbFlag => 1
  | .cartridgeType => 1
  | .romSizeCode => 1
  | .ramSizeCode => 1
  | .destinationCode => 1
  | .oldLicenseeCode => 1
  | .romVersion => 1
  | .headerChecksum => 1
  | .globalChecksum => 2

/-- The `HDR` index of the first byte of a field (rule R42). -/
def HeaderField.first : HeaderField → Nat
  | .entryPoint => 0x00
  | .bootLogo => 0x04
  | .title => 0x34
  | .newLicenseeCode => 0x44
  | .sgbFlag => 0x46
  | .cartridgeType => 0x47
  | .romSizeCode => 0x48
  | .ramSizeCode => 0x49
  | .destinationCode => 0x4A
  | .oldLicenseeCode => 0x4B
  | .romVersion => 0x4C
  | .headerChecksum => 0x4D
  | .globalChecksum => 0x4E

/-- The thirteen fields in the order of rule R42. -/
def headerFields : List HeaderField :=
  [.entryPoint, .bootLogo, .title, .newLicenseeCode, .sgbFlag, .cartridgeType, .romSizeCode,
   .ramSizeCode, .destinationCode, .oldLicenseeCode, .romVersion, .headerChecksum, .globalChecksum]

namespace Machine

/-- `HDR[i]`. Every rule reads an index from 0 to 79 (rule R9); the default is never used by one. -/
def headerByte (h : HeaderFile) (i : Nat) : Byte := h.getD i 0#8

/-- `n` consecutive header registers from `first`, in ascending offset order, never a packed integer
(rules R24, R76). -/
def headerSlice (h : HeaderFile) (first n : Nat) : Vector Byte n :=
  Vector.ofFn fun k : Fin n => headerByte h (first + k.val)

/-- `index = offset - HEADER_BASE` (rules R8, R57). -/
def headerIndex (ofs : Offset) : Nat := ofs.val - Config.headerBase

/-- `OFS + 1`; the counter "counts 0 to 0x150 and stops" (rules R6, R12). -/
def nextOffset (ofs : Offset) : Offset := Fin.ofNat 0x151 (min (ofs.val + 1) Config.headerEnd)

/-- The phase fixes these offsets in SKIP: 0 to 0xFF (rules R18, R53). -/
def inSkipRange (ofs : Offset) : Bool := decide (ofs.val < Config.headerBase)

/-- The phase fixes these offsets in CAPTURE: 0x100 to 0x14F (rules R18, R53). -/
def inCaptureRange (ofs : Offset) : Bool :=
  decide (Config.headerBase ≤ ofs.val) && decide (ofs.val < Config.headerEnd)

/-- The closed interval [CK_FIRST, CK_LAST] (rules R53, R62). -/
def inChecksumRange (offset : Nat) : Bool :=
  decide (Config.ckFirst ≤ offset) && decide (offset ≤ Config.ckLast)

end Machine

end Sys2Proof
end

