-- ==== Sys2Proof/Machine/ChecksumVerifier.lean ====
section
/-! DEFINITION. The arithmetic of the checksum_verifier (rules R60 to R63). -/

namespace Sys2Proof.Machine

/-- `ck_step(a, b) = (a - b - 1) mod 256` (rule R60). -/
def ckStep (a b : Byte) : Byte := a - b - 1#8

/-- `hdr_checksum(H)` (rule R61): the bytes at offsets CK_FIRST to CK_LAST in ascending order, from
CK_INIT. -/
def hdrChecksum (h : HeaderFile) : Byte :=
  (List.range' Config.ckFirst Config.ckCount).foldl
    (fun acc o => ckStep acc (headerByte h (o - Config.headerBase))) Config.ckInit

/-- The accumulator after the first `n` header bytes: the "partial sum over the offsets of
[0x134, 0x14C] that are below `OFS`" of rule R18, with `n = OFS - 0x100`. -/
def partialChecksum (h : HeaderFile) : Nat → Byte
  | 0 => Config.ckInit
  | n + 1 =>
    if inChecksumRange (Config.headerBase + n) then
      ckStep (partialChecksum h n) (headerByte h n)
    else partialChecksum h n

/-- The 25 bytes of the checksum range in ascending offset order (rule R62). -/
def checksumBytes (h : HeaderFile) : List Byte :=
  (List.range' Config.ckFirst Config.ckCount).map fun o => headerByte h (o - Config.headerBase)

/-- `S` of rule R63: the sum of the 25 bytes of the range as a natural number. -/
def checksumSum (h : HeaderFile) : Nat := ((checksumBytes h).map BitVec.toNat).sum

end Sys2Proof.Machine
end

