-- ==== Sys2Proof/Machine/Flags.lean ====
section
/-! DEFINITION. The one-bit outputs (rule R16): functions of the state, none is state. The last two
are the values the ports show in DONE; `Machine/Ports.lean` says when they are defined. -/

namespace Sys2Proof.Machine

/-- `header_valid = (PHASE == DONE)` (rule R16). -/
def State.headerValid (s : State) : Bool := s.phase == .done

/-- `error = (PHASE == ERROR)` (rule R16). -/
def State.errorFlag (s : State) : Bool := s.phase == .error

/-- `busy = (PHASE == SKIP or PHASE == CAPTURE)` (rule R16). -/
def State.busy (s : State) : Bool := s.phase == .skip || s.phase == .capture

/-- `ACC == HDR[0x4D]`, an 8-bit equality (rule R66). -/
def State.checksumMatches (s : State) : Bool := s.acc == headerByte s.hdr 0x4D

/-- Whether a ROM size code is recognised: an unsigned `c <= RSZ_MAX_CODE` (rules R69, R72). -/
def romSizeRecognised (code : Byte) : Bool := decide (code.toNat ≤ Config.rszMaxCode)

end Sys2Proof.Machine
end

