-- ==== Sys2Proof/Machine/Ops.lean ====
section
/-! DEFINITION. The named operations on the state: reset, beginning a load, raising a cause and the
two ways a byte moves, each written once and called by the meanings. -/

namespace Sys2Proof.Machine

/-- The reset step: PHASE, OFS, CAUSE and ACC written, "leaves `HDR` as it is" (rule R95). -/
def State.resetStep (s : State) : State :=
  { s with phase := .idle, ofs := 0, cause := .none, acc := Config.ckInit }

/-- The beginning of a load: the effect of START, "the only command that leaves ERROR" (rules R52,
R88). There is no return from an error (rule R88); this and reset are the ways out. -/
def State.beginLoad (s : State) : State :=
  { s with phase := .skip, ofs := 0, cause := .none, acc := Config.ckInit }

/-- `raise <Cause>`, the unit's one error entry: PHASE and CAUSE written; OFS, ACC and HDR keep
their values, OFS being the saved context (rule R86). -/
def State.raise (c : Cause) (s : State) : State :=
  { s with phase := .error, cause := c }

/-- PUSH in SKIP: the byte is dropped and counted, and the count reaching HEADER_BASE enters CAPTURE
(rule R53). -/
def State.dropByte (s : State) : State :=
  { s with
    ofs := nextOffset s.ofs
    phase := if s.ofs.val + 1 = Config.headerBase then .capture else s.phase }

/-- PUSH in CAPTURE: the byte is stored, folded into ACC if its offset is in the checksum range, and
counted; the count reaching HEADER_END enters DONE (rule R53). -/
def State.captureByte (b : Byte) (s : State) : State :=
  { s with
    hdr := s.hdr.setIfInBounds (headerIndex s.ofs) b
    acc := if inChecksumRange s.ofs.val then ckStep s.acc b else s.acc
    ofs := nextOffset s.ofs
    phase := if s.ofs.val + 1 = Config.headerEnd then .done else s.phase }

/-- The host notes what it sampled; the unit is not touched (rule R79; log entry 3). -/
def State.recordSample (r : Option RomSizeSample) (s : State) : State :=
  { s with romSample := r }

/-- What the host presents in this step: the next scheduled input, or the free host's (rules R7, R98;
log entry 2). DESIGN CHOICE (log entry 10), unsafe for several units: with nothing scheduled the
input depends on `drawn` alone, so two units with equal counters get the same one. -/
def State.presented (s : State) : PortInput :=
  match s.inputs with
  | [] => Config.hostInput s.drawn
  | p :: _ => p

/-- The state once this step's input has been taken. -/
def State.consume (s : State) : State :=
  match s.inputs with
  | [] => { s with drawn := s.drawn + 1 }
  | _ :: rest => { s with inputs := rest }

/-- The state with exactly these inputs scheduled. -/
def State.present (ps : List PortInput) (s : State) : State :=
  { s with inputs := ps }

/-- The state a finished load of header `h` leaves (rules R18, R57): DONE, OFS 0x150, CAUSE NONE,
ACC the checksum. -/
def State.withLoadedHeader (h : HeaderFile) (s : State) : State :=
  { s with
    hdr := h, ofs := Fin.ofNat 0x151 Config.headerEnd, phase := .done, cause := .none
    acc := hdrChecksum h }

end Sys2Proof.Machine
end

