-- ==== Sys2Proof/Machine/HeaderParser.lean ====
section
/-! DEFINITION. The header_parser: the meanings of the five commands (rules R51 to R55). -/

namespace Sys2Proof.Machine

/-- NOP: "The state is unchanged in every phase" (rule R51). -/
def execNop (s : State) : Host.Outcome State Fault Refusal := .next s

/-- START: begin a load, in every phase (rule R52). -/
def execStart (s : State) : Host.Outcome State Fault Refusal := .next s.beginLoad

/-- PUSH b: dropped in SKIP, captured in CAPTURE, ignored elsewhere (rule R53). The two faults are
for offsets the phase rules out (rule R18; log entry 4). -/
def execPush (b : Byte) (s : State) : Host.Outcome State Fault Refusal :=
  match s.phase with
  | .skip =>
    if inSkipRange s.ofs then .next s.dropByte
    else .fault (.offsetOutsidePhase .skip s.ofs.val)
  | .capture =>
    if inCaptureRange s.ofs then .next (s.captureByte b)
    else .fault (.offsetOutsidePhase .capture s.ofs.val)
  | .idle | .done | .error => .next s

/-- END: raises SEEK in SKIP and CAPTURE, ignored elsewhere (rules R54, R81). -/
def execEnd (s : State) : Host.Outcome State Fault Refusal :=
  match s.phase with
  | .skip | .capture => .next (s.raise .seek)
  | .idle | .done | .error => .next s

/-- ABORT: raises STREAM_READ in SKIP and CAPTURE, ignored elsewhere (rules R55, R82). -/
def execAbort (s : State) : Host.Outcome State Fault Refusal :=
  match s.phase with
  | .skip | .capture => .next (s.raise .streamRead)
  | .idle | .done | .error => .next s

end Sys2Proof.Machine
end

