-- ==== Sys2Proof/Machine/RomSizeDecoder.lean ====
section
/-! DEFINITION. The rom_size_decoder: its function (rule R69) and the meanings of the sixteen RSC
rows. A row runs when the host samples the decoder's two ports (log entry 3). -/

namespace Sys2Proof.Machine

/-- `rom_size(c)` (rule R69): `RSZ_UNIT << c` for a recognised code, else the fallback RSZ_UNIT. -/
def romSize (code : Byte) : SizeWord :=
  if romSizeRecognised code then Config.rszUnit <<< code.toNat else Config.rszUnit

/-- The decoder answers a sampling of `rom_size_bytes` and `rom_size_known` for the code it reads:
both values in DONE (rules R72, R73), no value in any other phase (rule R19, U1). The unit is
unchanged (rule R79). -/
def answerRomSize (code : Byte) (s : State) : Host.Outcome State Fault Refusal :=
  .next (s.recordSample
    (if s.headerValid then some ⟨romSize code, romSizeRecognised code⟩ else none))

/-- ROMSIZE_0: code 0x00, 32768 bytes, recognised (rules R69, R70). -/
def execRomsize0 (s : State) : Host.Outcome State Fault Refusal := answerRomSize 0x00#8 s

/-- ROMSIZE_1: code 0x01, 65536 bytes, recognised (rules R69, R70). -/
def execRomsize1 (s : State) : Host.Outcome State Fault Refusal := answerRomSize 0x01#8 s

/-- ROMSIZE_2: code 0x02, 131072 bytes, recognised (rules R69, R70). -/
def execRomsize2 (s : State) : Host.Outcome State Fault Refusal := answerRomSize 0x02#8 s

/-- ROMSIZE_3: code 0x03, 262144 bytes, recognised (rules R69, R70). -/
def execRomsize3 (s : State) : Host.Outcome State Fault Refusal := answerRomSize 0x03#8 s

/-- ROMSIZE_4: code 0x04, 524288 bytes, recognised (rules R69, R70). -/
def execRomsize4 (s : State) : Host.Outcome State Fault Refusal := answerRomSize 0x04#8 s

/-- ROMSIZE_5: code 0x05, 1048576 bytes, recognised (rules R69, R70). -/
def execRomsize5 (s : State) : Host.Outcome State Fault Refusal := answerRomSize 0x05#8 s

/-- ROMSIZE_6: code 0x06, 2097152 bytes, recognised (rules R69, R70). -/
def execRomsize6 (s : State) : Host.Outcome State Fault Refusal := answerRomSize 0x06#8 s

/-- ROMSIZE_7: code 0x07, 4194304 bytes, recognised (rules R69, R70). -/
def execRomsize7 (s : State) : Host.Outcome State Fault Refusal := answerRomSize 0x07#8 s

/-- ROMSIZE_8: code 0x08, 8388608 bytes, recognised (rules R69, R70). -/
def execRomsize8 (s : State) : Host.Outcome State Fault Refusal := answerRomSize 0x08#8 s

/-- ROMSIZE_FALLBACK_0: code 0x09, the fallback size (rules R69, R71). -/
def execRomsizeFallback0 (s : State) : Host.Outcome State Fault Refusal := answerRomSize 0x09#8 s

/-- ROMSIZE_FALLBACK_1: codes 0x0A to 0x0B (rules R69, R71). -/
def execRomsizeFallback1 (c : BitVec 1) (s : State) : Host.Outcome State Fault Refusal :=
  answerRomSize (0b0000101#7 ++ c) s

/-- ROMSIZE_FALLBACK_2: codes 0x0C to 0x0F (rules R69, R71). -/
def execRomsizeFallback2 (c : BitVec 2) (s : State) : Host.Outcome State Fault Refusal :=
  answerRomSize (0b000011#6 ++ c) s

/-- ROMSIZE_FALLBACK_3: codes 0x10 to 0x1F (rules R69, R71). -/
def execRomsizeFallback3 (c : BitVec 4) (s : State) : Host.Outcome State Fault Refusal :=
  answerRomSize (0b0001#4 ++ c) s

/-- ROMSIZE_FALLBACK_4: codes 0x20 to 0x3F (rules R69, R71). -/
def execRomsizeFallback4 (c : BitVec 5) (s : State) : Host.Outcome State Fault Refusal :=
  answerRomSize (0b001#3 ++ c) s

/-- ROMSIZE_FALLBACK_5: codes 0x40 to 0x7F, 0x52 to 0x54 among them (rules R69, R71). -/
def execRomsizeFallback5 (c : BitVec 6) (s : State) : Host.Outcome State Fault Refusal :=
  answerRomSize (0b01#2 ++ c) s

/-- ROMSIZE_FALLBACK_6: codes 0x80 to 0xFF (rules R69, R71). -/
def execRomsizeFallback6 (c : BitVec 7) (s : State) : Host.Outcome State Fault Refusal :=
  answerRomSize (0b1#1 ++ c) s

end Sys2Proof.Machine
end

