-- ==== Sys2Proof/Machine/Dispatch.lean ====
section
/-! DEFINITION. The dispatch: one arm per constructor of `Instr`, each one direct call. -/

namespace Sys2Proof.Machine

def exec (i : Instr) (s : State) : Host.Outcome State Fault Refusal :=
  match i with
  | .nop => Sys2Proof.Machine.execNop s
  | .start => Sys2Proof.Machine.execStart s
  | .push b => Sys2Proof.Machine.execPush b s
  | .endStream => Sys2Proof.Machine.execEnd s
  | .abort => Sys2Proof.Machine.execAbort s
  | .romsize0 => Sys2Proof.Machine.execRomsize0 s
  | .romsize1 => Sys2Proof.Machine.execRomsize1 s
  | .romsize2 => Sys2Proof.Machine.execRomsize2 s
  | .romsize3 => Sys2Proof.Machine.execRomsize3 s
  | .romsize4 => Sys2Proof.Machine.execRomsize4 s
  | .romsize5 => Sys2Proof.Machine.execRomsize5 s
  | .romsize6 => Sys2Proof.Machine.execRomsize6 s
  | .romsize7 => Sys2Proof.Machine.execRomsize7 s
  | .romsize8 => Sys2Proof.Machine.execRomsize8 s
  | .romsizeFallback0 => Sys2Proof.Machine.execRomsizeFallback0 s
  | .romsizeFallback1 c => Sys2Proof.Machine.execRomsizeFallback1 c s
  | .romsizeFallback2 c => Sys2Proof.Machine.execRomsizeFallback2 c s
  | .romsizeFallback3 c => Sys2Proof.Machine.execRomsizeFallback3 c s
  | .romsizeFallback4 c => Sys2Proof.Machine.execRomsizeFallback4 c s
  | .romsizeFallback5 c => Sys2Proof.Machine.execRomsizeFallback5 c s
  | .romsizeFallback6 c => Sys2Proof.Machine.execRomsizeFallback6 c s

end Sys2Proof.Machine
end

