-- ==== Sys2Proof/WellFormed.lean ====
section
/-! DEFINITION. Well-formedness: of an instruction, and of what the host presents. -/

namespace Sys2Proof

/-- Every operand's type is exactly the field of its row, and "Every byte of every field may take
any of its 256 values" (rule R43; rule R40 for `data`), so no instruction term is ill-formed. The
match is written out so that a new constructor must be considered here. -/
def Instr.wellFormed : Instr → Bool
  | .nop | .start | .push _ | .endStream | .abort => true
  | .romsize0 | .romsize1 | .romsize2 | .romsize3 | .romsize4 => true
  | .romsize5 | .romsize6 | .romsize7 | .romsize8 => true
  | .romsizeFallback0 | .romsizeFallback1 _ | .romsizeFallback2 _ | .romsizeFallback3 _ => true
  | .romsizeFallback4 _ | .romsizeFallback5 _ | .romsizeFallback6 _ => true

/-- The host's duty on the command port: never a word with `cmd` 5 to 7 (rules R41, R98). With
reset asserted "the command word is not looked at" (rule R94), so any word will do there. -/
def PortInput.wellFormed : PortInput → Bool
  | .edge true _ => true
  | .edge false w => decide ((w.extractLsb' 8 3).toNat ≤ 4)
  | .sampleRomSize => true

end Sys2Proof
end

