-- ==== Sys2Proof/Decode.lean ====
section
/-! DEFINITION. The decoder and the encoder, written from rules R38 to R41 and R44 and from the 21
rows of spec/opcode_table.json. -/

namespace Sys2Proof

/-- The field `cmd`, bits [10:8] of the command word (rule R38). -/
def cmdField (w : CommandWord) : BitVec 3 := w.extractLsb' 8 3

/-- The field `data`, bits [7:0] of the command word (rule R38), used as it is (rule R40). -/
def dataField (w : CommandWord) : Byte := w.extractLsb' 0 8

/-- `{cmd, data}` (rules R8, R38). -/
def commandWord (cmd : BitVec 3) (data : Byte) : CommandWord := cmd ++ data

/-- The decoder of the command port "looks at `cmd` only" (rule R39); 5, 6 and 7 are reserved
(rule R41). -/
def decodeCommand (w : CommandWord) : Except DecodeError Instr :=
  match cmdField w with
  | 0#3 => .ok .nop
  | 1#3 => .ok .start
  | 2#3 => .ok (.push (dataField w))
  | 3#3 => .ok .endStream
  | 4#3 => .ok .abort
  | c => .error (.reservedCommand c)

/-- The row of the opcode table that a ROM size code falls in. "No value is illegal" (rule R44), so
this one is total. -/
def decodeRomSizeCode (code : Byte) : Instr :=
  if code = 0x00#8 then .romsize0
  else if code = 0x01#8 then .romsize1
  else if code = 0x02#8 then .romsize2
  else if code = 0x03#8 then .romsize3
  else if code = 0x04#8 then .romsize4
  else if code = 0x05#8 then .romsize5
  else if code = 0x06#8 then .romsize6
  else if code = 0x07#8 then .romsize7
  else if code = 0x08#8 then .romsize8
  else if code = 0x09#8 then .romsizeFallback0
  else if code.extractLsb' 1 7 = 0b0000101#7 then .romsizeFallback1 (code.extractLsb' 0 1)
  else if code.extractLsb' 2 6 = 0b000011#6 then .romsizeFallback2 (code.extractLsb' 0 2)
  else if code.extractLsb' 4 4 = 0b0001#4 then .romsizeFallback3 (code.extractLsb' 0 4)
  else if code.extractLsb' 5 3 = 0b001#3 then .romsizeFallback4 (code.extractLsb' 0 5)
  else if code.extractLsb' 6 2 = 0b01#2 then .romsizeFallback5 (code.extractLsb' 0 6)
  else .romsizeFallback6 (code.extractLsb' 0 7)

/-- The decoder over both formats. -/
def decode : EncodedWord → Except DecodeError Instr
  | .cmd w => decodeCommand w
  | .rsc code => .ok (decodeRomSizeCode code)

/-- The encoder: the canonical word of each instruction (rules R39, R40: `data = 0` where it is
ignored) and the code of each RSC row. -/
def encode : Instr → EncodedWord
  | .nop => .cmd (commandWord 0#3 0#8)
  | .start => .cmd (commandWord 1#3 0#8)
  | .push b => .cmd (commandWord 2#3 b)
  | .endStream => .cmd (commandWord 3#3 0#8)
  | .abort => .cmd (commandWord 4#3 0#8)
  | .romsize0 => .rsc 0x00#8
  | .romsize1 => .rsc 0x01#8
  | .romsize2 => .rsc 0x02#8
  | .romsize3 => .rsc 0x03#8
  | .romsize4 => .rsc 0x04#8
  | .romsize5 => .rsc 0x05#8
  | .romsize6 => .rsc 0x06#8
  | .romsize7 => .rsc 0x07#8
  | .romsize8 => .rsc 0x08#8
  | .romsizeFallback0 => .rsc 0x09#8
  | .romsizeFallback1 c => .rsc (0b0000101#7 ++ c)
  | .romsizeFallback2 c => .rsc (0b000011#6 ++ c)
  | .romsizeFallback3 c => .rsc (0b0001#4 ++ c)
  | .romsizeFallback4 c => .rsc (0b001#3 ++ c)
  | .romsizeFallback5 c => .rsc (0b01#2 ++ c)
  | .romsizeFallback6 c => .rsc (0b1#1 ++ c)

/-- The row of spec/opcode_table.json: its width, match and mask. -/
def Instr.tableRow : Instr → TableRow
  | .nop => ⟨11, 0x000, 0x700⟩
  | .start => ⟨11, 0x100, 0x700⟩
  | .push _ => ⟨11, 0x200, 0x700⟩
  | .endStream => ⟨11, 0x300, 0x700⟩
  | .abort => ⟨11, 0x400, 0x700⟩
  | .romsize0 => ⟨8, 0x00, 0xFF⟩
  | .romsize1 => ⟨8, 0x01, 0xFF⟩
  | .romsize2 => ⟨8, 0x02, 0xFF⟩
  | .romsize3 => ⟨8, 0x03, 0xFF⟩
  | .romsize4 => ⟨8, 0x04, 0xFF⟩
  | .romsize5 => ⟨8, 0x05, 0xFF⟩
  | .romsize6 => ⟨8, 0x06, 0xFF⟩
  | .romsize7 => ⟨8, 0x07, 0xFF⟩
  | .romsize8 => ⟨8, 0x08, 0xFF⟩
  | .romsizeFallback0 => ⟨8, 0x09, 0xFF⟩
  | .romsizeFallback1 _ => ⟨8, 0x0A, 0xFE⟩
  | .romsizeFallback2 _ => ⟨8, 0x0C, 0xFC⟩
  | .romsizeFallback3 _ => ⟨8, 0x10, 0xF0⟩
  | .romsizeFallback4 _ => ⟨8, 0x20, 0xE0⟩
  | .romsizeFallback5 _ => ⟨8, 0x40, 0xC0⟩
  | .romsizeFallback6 _ => ⟨8, 0x80, 0x80⟩

/-- The width in bits of an encoded word: 11 for a command word, 8 for a ROM size code (rule R46). -/
def EncodedWord.width : EncodedWord → Nat
  | .cmd _ => 11
  | .rsc _ => 8

/-- The bits of an encoded word as a number, bit 0 least significant (rule R8). -/
def EncodedWord.bits : EncodedWord → Nat
  | .cmd w => w.toNat
  | .rsc code => code.toNat

/-- Whether a word lies in a row of the opcode table: the row's width, and the row's fixed bits
under its mask. -/
def EncodedWord.liesIn (e : EncodedWord) (r : TableRow) : Bool :=
  e.width == r.width && (e.bits &&& r.mask) == r.bits

/-- The encoded word that the opcode table's numbering means by the bits `w` of a row of `nbits`
bits: up to 8 bits a ROM size code, up to 16 a command word in whole bytes. A number with a bit
outside the row's width is no word of this hardware. -/
def tableWord (nbits w : Nat) : Option EncodedWord :=
  if nbits ≤ 8 then if w < 256 then some (.rsc (BitVec.ofNat 8 w)) else none
  else if nbits ≤ 16 then if w < 2048 then some (.cmd (BitVec.ofNat 11 w)) else none
  else none

/-- What the decoder reads from a word numbered as the opcode table numbers it. -/
def decodeTableWord (nbits w : Nat) : Option Instr :=
  match tableWord nbits w with
  | some e => (decode e).toOption
  | none => none

end Sys2Proof
end

