-- ==== Sys2Proof/Machine/Fetch.lean ====
section
/-! DEFINITION. What a step finds at the ports (rule R50), and placing a word where the next step
finds it. -/

namespace Sys2Proof.Machine

/-- Reset is looked at first and hides the command word; else the command word is decoded (rule
R50). A sampling of the ROM size ports makes the decoder read `HDR[0x48]` (rules R44, R69). -/
def State.fetch (s : State) : Fetched :=
  match s.presented with
  | .edge true _ => .reset
  | .edge false w =>
    match decode (.cmd w) with
    | .ok i => .instr i
    | .error _ => .reserved w
  | .sampleRomSize => .instr (decodeRomSizeCode (headerByte s.hdr 0x48))

/-- The state in which the next step runs the instruction a word encodes (log entry 7). A command
word is presented at the command port. A ROM size code stands in `HDR[0x48]` of a loaded header, and
the host samples the decoder's ports. -/
def State.placeWord (e : EncodedWord) (s : State) : State :=
  match e with
  | .cmd w => { s with inputs := .edge false w :: s.inputs }
  | .rsc code =>
    { s.withLoadedHeader (s.hdr.setIfInBounds 0x48 code) with
      inputs := .sampleRomSize :: s.inputs }

end Sys2Proof.Machine
end

