-- ==== Sys2Proof/Machine/Step.lean ====
section
/-! DEFINITION. One step of the machine: one interaction of the host with the unit (rules R7, R50). -/

namespace Sys2Proof.Machine

/-- One step: the input is taken, then reset or the fetched instruction has its whole effect; a
reserved command word is refused by name. -/
def step (s : State) : Host.Outcome State Fault Refusal :=
  match s.fetch with
  | .reset => .next s.consume.resetStep
  | .instr i => exec i s.consume
  | .reserved w => .refused (.reservedCommand w)

/-- `s` with the word of an opcode-table row where the next step finds it (log entry 7). A number
that is no word of the hardware changes nothing. -/
def State.withFetchWord (s : State) (nbits w : Nat) : State :=
  match tableWord nbits w with
  | some e => s.placeWord e
  | none => s

end Sys2Proof.Machine
end

