-- ==== Sys2Proof/Machine/Ports.lean ====
section
/-! DEFINITION. The output ports (rules R74 to R77): functions of the five state elements alone. The
status group is defined in every phase, the data group only in DONE. -/

namespace Sys2Proof.Machine

/-- The number of a phase on the port `phase[2:0]` (rule R13). -/
def Phase.code : Phase → BitVec 3
  | .idle => 0#3
  | .skip => 1#3
  | .capture => 2#3
  | .done => 3#3
  | .error => 4#3

/-- The number of a cause on the port `cause[1:0]` (rule R14). -/
def Cause.code : Cause → BitVec 2
  | .none => 0#2
  | .seek => 1#2
  | .streamRead => 2#2

/-- The status group (rules R16, R74, R77). -/
structure StatusPorts where
  phase : BitVec 3
  ofs : BitVec 9
  cause : BitVec 2
  headerValid : Bool
  error : Bool
  busy : Bool
  deriving DecidableEq, Repr

/-- The data group (rules R65, R66, R72 to R76), under the spec's port names. `headerChecksum` is
the stored byte, `computedChecksum` the computed one (conflict C5). -/
structure DataPorts where
  hdrBytes : HeaderFile
  entryPoint : Vector Byte 4
  bootLogo : Vector Byte 48
  title : Vector Byte 16
  newLicenseeCode : Vector Byte 2
  sgbFlag : Byte
  cartridgeType : Byte
  romSizeCode : Byte
  ramSizeCode : Byte
  destinationCode : Byte
  oldLicenseeCode : Byte
  romVersion : Byte
  headerChecksum : Byte
  globalChecksum : Vector Byte 2
  computedChecksum : Byte
  checksumOk : Bool
  romSizeBytes : SizeWord
  romSizeKnown : Bool
  deriving DecidableEq, Repr

/-- The status ports, "in every phase, including IDLE and ERROR" (rule R77). -/
def State.statusPorts (s : State) : StatusPorts where
  phase := s.phase.code
  ofs := BitVec.ofNat 9 s.ofs.val
  cause := s.cause.code
  headerValid := s.headerValid
  error := s.errorFlag
  busy := s.busy

/-- What a header and an accumulator show on the data ports (rules R65, R66, R72 to R76). -/
def dataPortsOf (s : State) : DataPorts where
  hdrBytes := s.hdr
  entryPoint := headerSlice s.hdr 0x00 4
  bootLogo := headerSlice s.hdr 0x04 48
  title := headerSlice s.hdr 0x34 16
  newLicenseeCode := headerSlice s.hdr 0x44 2
  sgbFlag := headerByte s.hdr 0x46
  cartridgeType := headerByte s.hdr 0x47
  romSizeCode := headerByte s.hdr 0x48
  ramSizeCode := headerByte s.hdr 0x49
  destinationCode := headerByte s.hdr 0x4A
  oldLicenseeCode := headerByte s.hdr 0x4B
  romVersion := headerByte s.hdr 0x4C
  headerChecksum := headerByte s.hdr 0x4D
  globalChecksum := headerSlice s.hdr 0x4E 2
  computedChecksum := s.acc
  checksumOk := s.checksumMatches
  romSizeBytes := romSize (headerByte s.hdr 0x48)
  romSizeKnown := romSizeRecognised (headerByte s.hdr 0x48)

/-- The data ports: "defined at the ports only while `PHASE` is DONE"; in any other phase the query
has no value (rule R19, U1). -/
def State.dataPorts (s : State) : Option DataPorts :=
  if s.headerValid then some (dataPortsOf s) else none

/-- The port of a field as the byte sequence of rule R76, by the layout of rule R42. -/
def State.fieldPort (f : HeaderField) (s : State) : Option (Vector Byte f.width) :=
  if s.headerValid then some (headerSlice s.hdr f.first f.width) else none

end Sys2Proof.Machine
end

