-- ==== Sys2Proof/Machine/Trace.lean ====
section
/-! DEFINITION. Sequences of host inputs: running them, the trace notation (rules R47, R48), and the
bytes a sequence gives to a load (rule R29). -/

namespace Sys2Proof.Machine

/-- `n` steps, stopping at the first that gives no next state. -/
def run : Nat → State → Host.Outcome State Fault Refusal
  | 0, s => .next s
  | n + 1, s =>
    match step s with
    | .next t => run n t
    | .fault r => .fault r
    | .refused r => .refused r

/-- The host presents exactly these inputs, one a step, in order (rule R33). -/
def drive (ps : List PortInput) (s : State) : Host.Outcome State Fault Refusal :=
  run ps.length (s.present ps)

/-- How the host asks for an instruction: a command by its canonical word (rule R39), a row of the
decoder by sampling the decoder's ports. -/
def inputOf (i : Instr) : PortInput :=
  match encode i with
  | .cmd w => .edge false w
  | .rsc _ => .sampleRomSize

/-- A step with reset asserted: the trace line `RESET` (rule R47). -/
def resetInput : PortInput := .edge true 0#11

/-- `STREAM <image>`: a PUSH per byte, then END (rule R48). -/
def streamInputs (image : List Byte) : List PortInput :=
  image.map (fun b => inputOf (.push b)) ++ [inputOf .endStream]

/-- `LOAD <image>`: START, then the stream (rule R48). -/
def loadInputs (image : List Byte) : List PortInput :=
  inputOf .start :: streamInputs image

/-- The inputs a trace line stands for (rules R47, R48). -/
def TraceLine.inputs : TraceLine → List PortInput
  | .nop => [inputOf .nop]
  | .start => [inputOf .start]
  | .push b => [inputOf (.push b)]
  | .endStream => [inputOf .endStream]
  | .abort => [inputOf .abort]
  | .reset => [resetInput]
  | .pushN n b => List.replicate n (inputOf (.push b))
  | .pushB bs => bs.map fun b => inputOf (.push b)
  | .stream image => streamInputs image
  | .load image => loadInputs image
  | .wait n => List.replicate n (inputOf .nop)

/-- The inputs a trace stands for, line after line. -/
def traceInputs (ls : List TraceLine) : List PortInput := ls.flatMap TraceLine.inputs

/-- A hexadecimal digit. -/
def hexDigit (n : Nat) : Char := if n < 10 then Char.ofNat (0x30 + n) else Char.ofNat (0x37 + n)

/-- A command word as three hexadecimal digits (rule R47). -/
def hexWord (w : CommandWord) : List Char :=
  [hexDigit (w.toNat / 256), hexDigit (w.toNat / 16 % 16), hexDigit (w.toNat % 16)]

/-- The line of a trace that spells a command (rule R47). A row of the decoder is no command and has
no line. -/
def commandText : Instr → Option (List Char)
  | .nop => some "NOP".toList
  | .start => some "START".toList
  | .push b => some ("PUSH 0x".toList ++ [hexDigit (b.toNat / 16), hexDigit (b.toNat % 16)])
  | .endStream => some "END".toList
  | .abort => some "ABORT".toList
  | .romsize0 | .romsize1 | .romsize2 | .romsize3 | .romsize4 => none
  | .romsize5 | .romsize6 | .romsize7 | .romsize8 => none
  | .romsizeFallback0 | .romsizeFallback1 _ | .romsizeFallback2 _ | .romsizeFallback3 _ => none
  | .romsizeFallback4 _ | .romsizeFallback5 _ | .romsizeFallback6 _ => none

/-- Whether an input is a NOP command, with any `data` (rules R39, R40). -/
def isNopInput : PortInput → Bool
  | .edge false w => cmdField w == 0#3
  | .edge true _ => false
  | .sampleRomSize => false

/-- Whether an input puts the unit back at a beginning: reset, or a START command with any `data`. -/
def restarts : PortInput → Bool
  | .edge true _ => true
  | .edge false w => cmdField w == 1#3
  | .sampleRomSize => false

/-- The bytes a sequence of inputs gives to the load that is running, if it holds nothing but PUSH
commands, NOP commands and samplings (rule R57: "with any NOPs between them and no START, END, ABORT
or reset"). -/
def pushedBytes : List PortInput → Option (List Byte)
  | [] => some []
  | .sampleRomSize :: ps => pushedBytes ps
  | .edge true _ :: _ => none
  | .edge false w :: ps =>
    if cmdField w = 0#3 then pushedBytes ps
    else if cmdField w = 2#3 then (pushedBytes ps).map (dataField w :: ·)
    else none

end Sys2Proof.Machine
end

