-- ==== Sys2Proof/Machine/Units.lean ====
section
/-! DEFINITION. Several units (rule R91): "A model of N units is the product of N copies of this
machine with no interaction." -/

namespace Sys2Proof.Machine

/-- One step of the unit at place `k`; the others keep their states. A place that holds no unit has
no step. DESIGN CHOICE (log entry 10), unsafe where several units have nothing scheduled: they all
draw from the one `Config.hostInput`, each by its own counter; rule R91 leaves each unit's commands
to its own host. Units step one at a time, and the stepping unit's fault or refusal is the outcome. -/
def stepUnit (us : List State) (k : Nat) : Option (Host.Outcome (List State) Fault Refusal) :=
  match us[k]? with
  | none => none
  | some s =>
    match step s with
    | .next t => some (.next (us.set k t))
    | .fault r => some (.fault r)
    | .refused r => some (.refused r)

end Sys2Proof.Machine
end

