-- ==== Sys2Proof/Safety.lean ====
section
/-! DEFINITION. What statements about the machine are made of: the invariant of rule R18, when a run
is over (rule R97), and when two states agree on the unit or on what can be seen of it. -/

namespace Sys2Proof.Machine

/-- The table of rule R18: the phase fixes the range of OFS, the value of CAUSE and, outside ERROR,
the value of ACC as a function of what HDR holds. -/
def State.Inv (s : State) : Prop :=
  match s.phase with
  | .idle => s.ofs.val = 0 ∧ s.cause = .none ∧ s.acc = Config.ckInit
  | .skip => s.ofs.val < Config.headerBase ∧ s.cause = .none ∧ s.acc = Config.ckInit
  | .capture =>
    Config.headerBase ≤ s.ofs.val ∧ s.ofs.val < Config.headerEnd ∧ s.cause = .none ∧
      s.acc = partialChecksum s.hdr (headerIndex s.ofs)
  | .done => s.ofs.val = Config.headerEnd ∧ s.cause = .none ∧ s.acc = hdrChecksum s.hdr
  | .error => s.ofs.val < Config.headerEnd ∧ s.cause ≠ .none

/-- A run is over when PHASE is DONE or ERROR (rule R97). -/
def State.runOver (s : State) : Prop := s.phase = .done ∨ s.phase = .error

/-- The five elements of the unit are the same (rule R10). -/
def sameUnit (s t : State) : Prop :=
  s.hdr = t.hdr ∧ s.ofs = t.ofs ∧ s.phase = t.phase ∧ s.cause = t.cause ∧ s.acc = t.acc

/-- The three status flags are the same (rule R16). -/
def sameFlags (s t : State) : Prop :=
  s.headerValid = t.headerValid ∧ s.errorFlag = t.errorFlag ∧ s.busy = t.busy

/-- The model's record of the host is the same (log entries 2 and 3). -/
def sameHostRecord (s t : State) : Prop :=
  s.inputs = t.inputs ∧ s.drawn = t.drawn ∧ s.romSample = t.romSample

/-- Every output port shows the same (rule R74). -/
def sameOutputs (s t : State) : Prop :=
  s.statusPorts = t.statusPorts ∧ s.dataPorts = t.dataPorts

end Sys2Proof.Machine
end

