-- ==== Sys2Proof/Certificates/Slice0/Obligations.lean ====
section
/-! DEFINITION. The statements about the unit, each from the numbered rules of spec/. -/

open Sys2Proof Sys2Proof.Machine

/-! Encoding -/

/-- Words written out from the patterns of rule R39 and of the RSC rows of the opcode table decode to
the instructions they stand for (rule R47: "`PUSH 0xCE` is 0x2CE"). -/
def Obligations.WrittenOutWordsDecode : Prop :=
  decode (.cmd 0b00000000000#11) = .ok .nop ∧
  decode (.cmd 0b00100000000#11) = .ok .start ∧
  decode (.cmd 0b01011001110#11) = .ok (.push 0xCE#8) ∧
  decode (.cmd 0b01100000000#11) = .ok .endStream ∧
  decode (.cmd 0b10000000000#11) = .ok .abort ∧
  decode (.rsc 0b00000101#8) = .ok .romsize5 ∧
  decode (.rsc 0b00001001#8) = .ok .romsizeFallback0 ∧
  decode (.rsc 0b01010010#8) = .ok (.romsizeFallback5 0b010010#6) ∧
  decode (.rsc 0b11111111#8) = .ok (.romsizeFallback6 0b1111111#7)

/-- Rules R38 and R39: the two fields of the command word, and each row of the command table as
match and mask; "The decoder looks at `cmd` only". -/
def Obligations.CommandRowsOfTheTable : Prop :=
  ∀ w : CommandWord,
    (cmdField w).toNat = w.toNat / 256 ∧ (dataField w).toNat = w.toNat % 256 ∧
    (w &&& 0x700#11 = 0x000#11 ↔ decode (.cmd w) = .ok .nop) ∧
    (w &&& 0x700#11 = 0x100#11 ↔ decode (.cmd w) = .ok .start) ∧
    (w &&& 0x700#11 = 0x200#11 ↔ decode (.cmd w) = .ok (.push (dataField w))) ∧
    (w &&& 0x700#11 = 0x300#11 ↔ decode (.cmd w) = .ok .endStream) ∧
    (w &&& 0x700#11 = 0x400#11 ↔ decode (.cmd w) = .ok .abort)

/-- No bit of an encoding is dropped: every well-formed instruction, at every operand value, is read
back from its encoding. -/
def Obligations.DecodeOfEncode : Prop :=
  ∀ i : Instr, i.wellFormed = true → decode (encode i) = .ok i

/-- The other direction: a ROM size code is the encoding of what it decodes to, and a command word
that decodes is the canonical word but for data bits that are ignored (rule R40). -/
def Obligations.EncodeOfDecode : Prop :=
  (∀ code : Byte, ∃ i, decode (.rsc code) = .ok i ∧ encode i = .rsc code) ∧
  (∀ (w : CommandWord) (i : Instr), decode (.cmd w) = .ok i →
    encode i = .cmd (if cmdField w = 2#3 then w else w &&& 0x700#11))

/-- The rows of the opcode table and the decoder are the same thing: a word lies in an instruction's
row exactly when it decodes to an instruction of that row, so no word lies in two rows. -/
def Obligations.TableRowsAreTheDecoder : Prop :=
  ∀ (e : EncodedWord) (i : Instr),
    e.liesIn i.tableRow = true ↔ ∃ j, decode e = .ok j ∧ j.tableRow = i.tableRow

/-- Rule R41 and U2: a step is refused exactly when the command port holds `cmd` 5, 6 or 7 and reset
is not asserted. -/
def Obligations.StepRefusesExactlyReservedCommands : Prop :=
  ∀ (s : State) (r : Refusal),
    step s = .refused r ↔
      ∃ w, s.presented = .edge false w ∧ 5 ≤ (cmdField w).toNat ∧ r = .reservedCommand w

/-! The step -/

/-- A step runs the decoded instruction: from the command port, or for the code in `HDR[0x48]` when
the decoder's ports are sampled. Around it the step only takes the input it used. -/
def Obligations.StepRunsDecodedInstruction : Prop :=
  ∀ s : State,
    (∀ (w : CommandWord) (i : Instr), s.presented = .edge false w → decode (.cmd w) = .ok i →
      i.wellFormed = true → step s = exec i s.consume) ∧
    (∀ i : Instr, s.presented = .sampleRomSize →
      decode (.rsc (headerByte s.hdr 0x48)) = .ok i → i.wellFormed = true →
        step s = exec i s.consume) ∧
    (∀ (p : PortInput) (rest : List PortInput), s.inputs = p :: rest →
      s.presented = p ∧ s.consume = { s with inputs := rest })

/-- Rules R94 and R95: with reset asserted the step is the reset step, whatever the command word, in
any phase; it keeps `HDR`, and differs from START in the phase alone, IDLE, where PUSH is ignored. -/
def Obligations.ResetStepWinsOverTheCommand : Prop :=
  ∀ (s : State) (w : CommandWord), s.presented = .edge true w →
    ∃ t, step s = .next t ∧ t.phase = .idle ∧ t.ofs.val = 0 ∧ t.cause = .none ∧ t.acc = 0#8 ∧
      t.hdr = s.hdr ∧ sameHostRecord s.consume t ∧
      exec .start s.consume = .next { t with phase := .skip } ∧
      ∀ b : Byte, exec (.push b) t = .next t

/-- Rule R21: the state after reset, for any contents of the header registers. -/
def Obligations.ResetLeavesTheStatedValues : Prop :=
  ∀ h : HeaderFile,
    (State.resetWith h).phase = .idle ∧ (State.resetWith h).ofs.val = 0 ∧
    (State.resetWith h).cause = .none ∧ (State.resetWith h).acc = 0#8 ∧
    (State.resetWith h).hdr = h ∧ (State.resetWith h).resetStep = State.resetWith h ∧
    (State.resetWith h).statusPorts = ⟨0#3, 0#9, 0#2, false, false, false⟩ ∧
    (State.resetWith h).dataPorts = none

/-! The five commands -/

/-- Rule R51: NOP leaves the state unchanged in every phase. -/
def Obligations.NopLeavesTheStateUnchanged : Prop :=
  encode .nop = .cmd 0x000#11 ∧ ∀ s : State, exec .nop s = .next s

/-- Rule R52: START in every phase; `HDR` and the host's record are kept. -/
def Obligations.StartBeginsALoad : Prop :=
  encode .start = .cmd 0x100#11 ∧
  ∀ s : State, ∃ t, exec .start s = .next t ∧
    t = { s with phase := .skip, ofs := 0, acc := 0#8, cause := .none } ∧
    t.busy = true ∧ t.headerValid = false ∧ t.errorFlag = false ∧ t.dataPorts = none ∧
    exec .start t = .next t

/-- Rule R53: PUSH in SKIP, in CAPTURE, and in the three other phases. -/
def Obligations.PushDropsCapturesOrIgnores : Prop :=
  ∀ (s : State) (b : Byte),
    (encode (.push b)).bits = 0x200 + b.toNat ∧
    (s.phase = .skip → s.ofs.val < 0x100 →
      ∃ t, exec (.push b) s = .next t ∧ t.ofs.val = s.ofs.val + 1 ∧
        t.phase = (if s.ofs.val = 0xFF then .capture else .skip) ∧
        t.hdr = s.hdr ∧ t.acc = s.acc ∧ t.cause = s.cause ∧
        sameFlags s t ∧ sameHostRecord s t) ∧
    (s.phase = .capture → 0x100 ≤ s.ofs.val → s.ofs.val < 0x150 →
      ∃ t, exec (.push b) s = .next t ∧ t.ofs.val = s.ofs.val + 1 ∧
        t.phase = (if s.ofs.val = 0x14F then .done else .capture) ∧
        (∀ i, i < 80 →
          headerByte t.hdr i = if i = s.ofs.val - 0x100 then b else headerByte s.hdr i) ∧
        t.acc = (if 0x134 ≤ s.ofs.val ∧ s.ofs.val ≤ 0x14C then ckStep s.acc b else s.acc) ∧
        t.cause = s.cause ∧ sameHostRecord s t ∧
        (if s.ofs.val = 0x14F then
          t.headerValid = true ∧ t.busy = false ∧ t.errorFlag = false ∧ t.dataPorts.isSome = true
        else sameFlags s t)) ∧
    (s.phase = .idle ∨ s.phase = .done ∨ s.phase = .error → exec (.push b) s = .next s)

/-- The model's choice (log entry 4): a PUSH stops, by name, in the states that rule R18 rules out. -/
def Obligations.PushStopsOutsideThePhaseRange : Prop :=
  ∀ (s : State) (b : Byte),
    (s.phase = .skip → 0x100 ≤ s.ofs.val →
      exec (.push b) s = .fault (.offsetOutsidePhase .skip s.ofs.val)) ∧
    (s.phase = .capture → s.ofs.val < 0x100 ∨ s.ofs.val = 0x150 →
      exec (.push b) s = .fault (.offsetOutsidePhase .capture s.ofs.val))

/-- Rule R54: END raises SEEK exactly when the load is unfinished; OFS, ACC and HDR are kept. -/
def Obligations.EndRaisesSeekOnAnUnfinishedLoad : Prop :=
  encode .endStream = .cmd 0x300#11 ∧
  ∀ s : State,
    (s.phase = .skip ∨ s.phase = .capture →
      ∃ t, exec .endStream s = .next t ∧ t = { s with phase := .error, cause := .seek } ∧
        t.errorFlag = true ∧ t.busy = false) ∧
    (s.phase = .idle ∨ s.phase = .done ∨ s.phase = .error → exec .endStream s = .next s)

/-- Rule R55: ABORT raises STREAM_READ exactly when the load is unfinished. -/
def Obligations.AbortRaisesStreamReadOnAnUnfinishedLoad : Prop :=
  encode .abort = .cmd 0x400#11 ∧
  ∀ s : State,
    (s.phase = .skip ∨ s.phase = .capture →
      ∃ t, exec .abort s = .next t ∧ t = { s with phase := .error, cause := .streamRead } ∧
        t.errorFlag = true ∧ t.busy = false) ∧
    (s.phase = .idle ∨ s.phase = .done ∨ s.phase = .error → exec .abort s = .next s)

/-- Rule R86: raising a cause writes PHASE and CAUSE and nothing else, and hides every data port. -/
def Obligations.RaiseWritesPhaseAndCauseOnly : Prop :=
  ∀ (s : State) (c : Cause), c ≠ .none →
    s.raise c = { s with phase := .error, cause := c } ∧
    (s.raise c).statusPorts =
      ⟨4#3, BitVec.ofNat 9 s.ofs.val, c.code, false, true, false⟩ ∧
    (s.raise c).dataPorts = none

/-! The ROM size decoder -/

/-- Rules R69 and R70, rows ROMSIZE_0 to ROMSIZE_8: in DONE a sampling answers the row's size,
recognised, and nothing else changes. That a sampling is a step of the model is log entry 3. -/
def Obligations.RecognisedRowsAnswerTheirSize : Prop :=
  ∀ s : State, s.phase = .done →
    exec .romsize0 s = .next { s with romSample := some ⟨32768#32, true⟩ } ∧
    exec .romsize1 s = .next { s with romSample := some ⟨65536#32, true⟩ } ∧
    exec .romsize2 s = .next { s with romSample := some ⟨131072#32, true⟩ } ∧
    exec .romsize3 s = .next { s with romSample := some ⟨262144#32, true⟩ } ∧
    exec .romsize4 s = .next { s with romSample := some ⟨524288#32, true⟩ } ∧
    exec .romsize5 s = .next { s with romSample := some ⟨1048576#32, true⟩ } ∧
    exec .romsize6 s = .next { s with romSample := some ⟨2097152#32, true⟩ } ∧
    exec .romsize7 s = .next { s with romSample := some ⟨4194304#32, true⟩ } ∧
    exec .romsize8 s = .next { s with romSample := some ⟨8388608#32, true⟩ }

/-- Rules R69 to R71, rows ROMSIZE_FALLBACK_0 to ROMSIZE_FALLBACK_6: in DONE a sampling answers 32768,
not recognised, at every value of the row's free bits. That a sampling is a step is log entry 3. -/
def Obligations.FallbackRowsAnswerTheFallback : Prop :=
  ∀ s : State, s.phase = .done →
    exec .romsizeFallback0 s = .next { s with romSample := some ⟨32768#32, false⟩ } ∧
    (∀ c, exec (.romsizeFallback1 c) s = .next { s with romSample := some ⟨32768#32, false⟩ }) ∧
    (∀ c, exec (.romsizeFallback2 c) s = .next { s with romSample := some ⟨32768#32, false⟩ }) ∧
    (∀ c, exec (.romsizeFallback3 c) s = .next { s with romSample := some ⟨32768#32, false⟩ }) ∧
    (∀ c, exec (.romsizeFallback4 c) s = .next { s with romSample := some ⟨32768#32, false⟩ }) ∧
    (∀ c, exec (.romsizeFallback5 c) s = .next { s with romSample := some ⟨32768#32, false⟩ }) ∧
    (∀ c, exec (.romsizeFallback6 c) s = .next { s with romSample := some ⟨32768#32, false⟩ })

/-- U1: outside DONE every row of the decoder answers no value, and the unit is unchanged. -/
def Obligations.RomSizeRowsAnswerNothingOutsideDone : Prop :=
  ∀ (i : Instr) (code : Byte) (s : State), encode i = .rsc code → s.phase ≠ .done →
    exec i s = .next { s with romSample := none }

/-- A sampling gives the host exactly what the two ports show, and changes nothing in the unit (rules
R72, R73, R79). -/
def Obligations.SamplingAnswersThePorts : Prop :=
  ∀ s : State, s.presented = .sampleRomSize →
    step s = .next { s.consume with
      romSample := s.dataPorts.map fun d => ⟨d.romSizeBytes, d.romSizeKnown⟩ }

/-- Rule R69: the size function, no bit shifted out, and the one header register it reads. -/
def Obligations.RomSizeIsThirtyTwoKiBShiftedOrFallback : Prop :=
  (∀ c : Byte,
    romSize c = (if c.toNat ≤ 8 then 32768#32 <<< c.toNat else 32768#32) ∧
    (romSize c).toNat = if c.toNat ≤ 8 then 32768 * 2 ^ c.toNat else 32768) ∧
  ∀ (s : State) (d : DataPorts), s.dataPorts = some d →
    d.romSizeBytes = romSize (headerByte s.hdr 0x48)

/-- Rules R72 and R73: the two ports of the decoder, by phase, and the bits of the size. -/
def Obligations.RomSizePorts : Prop :=
  (∀ s : State, s.phase = .done →
    ∃ d, s.dataPorts = some d ∧ d.romSizeBytes = romSize (headerByte s.hdr 0x48) ∧
      (d.romSizeKnown = true ↔ (headerByte s.hdr 0x48).toNat ≤ 8)) ∧
  (∀ s : State, s.phase ≠ .done → s.dataPorts = none) ∧
  (∀ c : Byte,
    (∀ k, k ≤ 14 ∨ 24 ≤ k → (romSize c).getLsbD k = false) ∧
    (∃ k, 15 ≤ k ∧ k ≤ 23 ∧ ∀ j, (romSize c).getLsbD j = true ↔ j = k))

/-! The checksum verifier -/

/-- Rule R60: the step of the accumulator, and its equal forms. -/
def Obligations.CkStepSubtractsModulo256 : Prop :=
  ∀ a b : Byte,
    ((ckStep a b).toNat : Int) = ((a.toNat : Int) - b.toNat - 1) % 256 ∧
    ((ckStep a b).toNat : Int) = (((a.toNat : Int) - b.toNat) % 256 - 1) % 256 ∧
    (ckStep a b).toNat = (a.toNat + (255 - b.toNat)) % 256 ∧
    ckStep a b = a + (b ^^^ 0xFF#8)

/-- Rule R63: the closed form of the checksum and its consequences. -/
def Obligations.ChecksumClosedForm : Prop :=
  (∀ h : HeaderFile,
    ((hdrChecksum h).toNat : Int) = (231 - (checksumSum h : Int)) % 256 ∧
    ((hdrChecksum h).toNat : Int) = (0 - (checksumSum h : Int) - 25) % 256 ∧
    ((hdrChecksum h).toNat + checksumSum h + 25) % 256 = 0 ∧ checksumSum h ≤ 6375) ∧
  (∀ h : HeaderFile, (∀ b ∈ checksumBytes h, b = 0x00#8) → hdrChecksum h = 0xE7#8) ∧
  (∀ h : HeaderFile, (∀ b ∈ checksumBytes h, b = 0xFF#8) → hdrChecksum h = 0x00#8) ∧
  (∀ h h' : HeaderFile, (checksumBytes h).Perm (checksumBytes h') →
    hdrChecksum h = hdrChecksum h') ∧
  (∃ h h' : HeaderFile, h.toList.Perm h'.toList ∧ hdrChecksum h ≠ hdrChecksum h')

/-- Rules R61, R62 and R65: the checksum reads the 25 bytes of [0x134, 0x14C] and nothing else. -/
def Obligations.ChecksumReadsOnlyItsRange : Prop :=
  ∀ h h' : HeaderFile,
    (∀ i, 0x34 ≤ i → i ≤ 0x4C → headerByte h i = headerByte h' i) → hdrChecksum h = hdrChecksum h'

/-- Rules R64 to R66: in DONE the accumulator is the checksum of the captured header, the port
`checksum_ok` compares it with the stored byte, and exactly one stored byte matches. -/
def Obligations.ChecksumPortsInDone : Prop :=
  (∀ s : State, s.Inv → s.phase = .done →
    ∃ d, s.dataPorts = some d ∧ d.computedChecksum = hdrChecksum s.hdr ∧
      d.headerChecksum = headerByte s.hdr 0x4D ∧
      (d.checksumOk = true ↔ d.computedChecksum = d.headerChecksum)) ∧
  (∀ h : HeaderFile, ∃ b : Byte, ∀ c : Byte,
    hdrChecksum (h.setIfInBounds 0x4D c) = headerByte (h.setIfInBounds 0x4D c) 0x4D ↔ c = b)

/-! The ports -/

/-- Rule R77: the three status ports, in every phase, by the numbers of rules R13 and R14. -/
def Obligations.StatusPortsShowPhaseOffsetAndCause : Prop :=
  ∀ s : State,
    s.statusPorts.phase.toNat =
      (match s.phase with | .idle => 0 | .skip => 1 | .capture => 2 | .done => 3 | .error => 4) ∧
    s.statusPorts.ofs.toNat = s.ofs.val ∧
    s.statusPorts.cause.toNat =
      (match s.cause with | .none => 0 | .seek => 1 | .streamRead => 2)

/-- Rule R16: the flags by phase, exactly one of the four at any time. -/
def Obligations.FlagsByPhase : Prop :=
  ∀ s : State,
    (s.headerValid = true ↔ s.phase = .done) ∧ (s.errorFlag = true ↔ s.phase = .error) ∧
    (s.busy = true ↔ s.phase = .skip ∨ s.phase = .capture) ∧
    s.headerValid.toNat + s.errorFlag.toNat + s.busy.toNat + (decide (s.phase = .idle)).toNat = 1

/-- Rule R19 and U1: a data port has a value exactly in DONE. -/
def Obligations.DataPortsHaveValuesOnlyInDone : Prop :=
  ∀ s : State,
    (s.dataPorts.isSome = true ↔ s.phase = .done) ∧
    ∀ f : HeaderField, (s.fieldPort f).isSome = true ↔ s.phase = .done

/-- Rules R75 and R76: in DONE `hdr_bytes` is `HDR`, each field port is its slice, and the thirteen
slices in order are the header with no gap; otherwise no port has a value. -/
def Obligations.FieldPortsTileTheHeader : Prop :=
  ∀ s : State,
    (s.phase ≠ .done → s.dataPorts = none) ∧
    (s.phase = .done → ∃ d, s.dataPorts = some d ∧
      (∀ i, i < 80 → headerByte d.hdrBytes i = headerByte s.hdr i) ∧
      (∀ k (_ : k < 4), d.entryPoint[k] = headerByte s.hdr (0x00 + k)) ∧
      (∀ k (_ : k < 48), d.bootLogo[k] = headerByte s.hdr (0x04 + k)) ∧
      (∀ k (_ : k < 16), d.title[k] = headerByte s.hdr (0x34 + k)) ∧
      (∀ k (_ : k < 2), d.newLicenseeCode[k] = headerByte s.hdr (0x44 + k)) ∧
      d.sgbFlag = headerByte s.hdr 0x46 ∧ d.cartridgeType = headerByte s.hdr 0x47 ∧
      d.romSizeCode = headerByte s.hdr 0x48 ∧ d.ramSizeCode = headerByte s.hdr 0x49 ∧
      d.destinationCode = headerByte s.hdr 0x4A ∧ d.oldLicenseeCode = headerByte s.hdr 0x4B ∧
      d.romVersion = headerByte s.hdr 0x4C ∧ d.headerChecksum = headerByte s.hdr 0x4D ∧
      (∀ k (_ : k < 2), d.globalChecksum[k] = headerByte s.hdr (0x4E + k)) ∧
      d.entryPoint.toList ++ d.bootLogo.toList ++ d.title.toList ++ d.newLicenseeCode.toList ++
        [d.sgbFlag, d.cartridgeType, d.romSizeCode, d.ramSizeCode, d.destinationCode,
         d.oldLicenseeCode, d.romVersion, d.headerChecksum] ++ d.globalChecksum.toList =
        d.hdrBytes.toList)

/-- Rule R42: the layout table is the running sum of the widths, 80 bytes in all, and the port of a
field by that table is the slice that `hdr_bytes` holds there. -/
def Obligations.FieldLayoutIsTheRunningSum : Prop :=
  (∀ f : HeaderField, f ∈ headerFields) ∧ headerFields.Nodup ∧
  (∀ (before : List HeaderField) (f : HeaderField) (after : List HeaderField),
    headerFields = before ++ f :: after → f.first = (before.map HeaderField.width).sum) ∧
  (headerFields.map HeaderField.width).sum = 80 ∧
  (∀ (s : State) (f : HeaderField) (d : DataPorts), s.dataPorts = some d →
    ∃ v, s.fieldPort f = some v ∧
      ∀ k (_ : k < f.width), v[k] = headerByte d.hdrBytes (f.first + k))

/-- Rule R74: every output is a function of the five elements of the unit and of nothing else. -/
def Obligations.OutputsAreAFunctionOfTheUnit : Prop :=
  ∀ s t : State, sameUnit s t → sameOutputs s t

/-! Invariants and whole-machine rules -/

/-- The invariant of rule R18 holds after reset, whatever the header registers hold. -/
def Obligations.InvAtReset : Prop :=
  State.reset.Inv ∧ ∀ h : HeaderFile, (State.resetWith h).Inv

/-- Rule R18: every step keeps the table of phases, from every state that meets it. -/
def Obligations.StepKeepsInv : Prop :=
  ∀ s t : State, s.Inv → step s = .next t → t.Inv

/-- Rule R80: under the invariant no step faults, whatever the host presents. -/
def Obligations.NoStepFaultsUnderInv : Prop :=
  ∀ (s : State) (r : Fault), s.Inv → step s ≠ .fault r

/-- Rule R50: "the unit accepts a command in every step in every phase". -/
def Obligations.EveryInputIsAcceptedInEveryPhase : Prop :=
  ∀ s : State, s.Inv → s.presented.wellFormed = true → ∃ t, step s = .next t ∧ t.Inv

/-- Rule R56: the transition table, cell by cell; "same" is the unit unchanged. The clause on
sampling is no column of that table: that a sampling is a step is the model's choice (log entry 3;
R49), and that it changes nothing is rule R79. -/
def Obligations.PhaseTransitionTable : Prop :=
  ∀ s t : State, step s = .next t →
    match s.presented with
    | .edge true _ => t.phase = .idle
    | .sampleRomSize => sameUnit s t
    | .edge false w =>
      (cmdField w = 0#3 → sameUnit s t) ∧
      (cmdField w = 1#3 → t.phase = .skip ∧ t.ofs.val = 0) ∧
      (cmdField w = 2#3 →
        (s.phase = .skip → t.phase = if s.ofs.val = 0xFF then .capture else .skip) ∧
        (s.phase = .capture → t.phase = if s.ofs.val = 0x14F then .done else .capture) ∧
        (s.phase = .idle ∨ s.phase = .done ∨ s.phase = .error → sameUnit s t)) ∧
      (cmdField w = 3#3 →
        (s.phase = .skip ∨ s.phase = .capture → t.phase = .error ∧ t.cause = .seek) ∧
        (s.phase = .idle ∨ s.phase = .done ∨ s.phase = .error → sameUnit s t)) ∧
      (cmdField w = 4#3 →
        (s.phase = .skip ∨ s.phase = .capture → t.phase = .error ∧ t.cause = .streamRead) ∧
        (s.phase = .idle ∨ s.phase = .done ∨ s.phase = .error → sameUnit s t))

/-- Rule R11, write access: only a PUSH in CAPTURE writes `HDR`, and only the register of its offset. -/
def Obligations.OnlyPushInCaptureWritesHeader : Prop :=
  ∀ s t : State, step s = .next t →
    t.hdr = s.hdr ∨
    (∃ w, s.presented = .edge false w ∧ cmdField w = 2#3 ∧ s.phase = .capture ∧
      ∀ i, i < 80 →
        headerByte t.hdr i = if i = s.ofs.val - 0x100 then dataField w else headerByte s.hdr i)

/-- Rule R12: START and reset write 0 to `OFS`, a PUSH in SKIP or CAPTURE adds 1, and nothing else
changes it. -/
def Obligations.OnlyRestartAndPushChangeOffset : Prop :=
  ∀ s t : State, step s = .next t →
    t.ofs = s.ofs ∨ (restarts s.presented = true ∧ t.ofs.val = 0) ∨
    (∃ w, s.presented = .edge false w ∧ cmdField w = 2#3 ∧
      (s.phase = .skip ∨ s.phase = .capture) ∧ t.ofs.val = s.ofs.val + 1)

/-- Rule R15: START and reset write CK_INIT to `ACC`, a PUSH in CAPTURE at an offset of the range
writes `ck_step(ACC, data)`, and "Nothing else writes it". -/
def Obligations.OnlyRestartAndSummedPushWriteAccumulator : Prop :=
  ∀ s t : State, step s = .next t →
    t.acc = s.acc ∨ (restarts s.presented = true ∧ t.acc = 0#8) ∨
    (∃ w, s.presented = .edge false w ∧ cmdField w = 2#3 ∧ s.phase = .capture ∧
      0x134 ≤ s.ofs.val ∧ s.ofs.val ≤ 0x14C ∧ t.acc = ckStep s.acc (dataField w))

/-- Rules R80 and R85: who writes `CAUSE`; a cause once raised stays until START or reset. -/
def Obligations.OnlyRestartEndAndAbortWriteCause : Prop :=
  ∀ s t : State, step s = .next t →
    (restarts s.presented = true ∧ t.cause = .none) ∨
    (restarts s.presented = false ∧
      (t.cause = s.cause ∨
      ((s.phase = .skip ∨ s.phase = .capture) ∧ t.phase = .error ∧
        ∃ w, s.presented = .edge false w ∧
          ((cmdField w = 3#3 ∧ t.cause = .seek) ∨ (cmdField w = 4#3 ∧ t.cause = .streamRead)))))

/-- Rules R59, R88 and R97: once a run is over, no sequence of inputs without START or reset changes
the unit, and every well-formed one is accepted. -/
def Obligations.FinishedRunChangesOnlyByRestart : Prop :=
  ∀ (s : State) (ps : List PortInput), s.runOver →
    (∀ p ∈ ps, p.wellFormed = true ∧ restarts p = false) →
    ∃ t, drive ps s = .next t ∧ sameUnit s t ∧ sameOutputs s t

/-- Rule R93: any number of NOPs leaves a running load where it is. -/
def Obligations.RunningLoadWaitsForEver : Prop :=
  ∀ (s : State) (ps : List PortInput), s.busy = true → (∀ p ∈ ps, isNopInput p = true) →
    drive ps s = .next (s.present [])

/-- Rules R51 and R108: taking the NOPs out of any sequence of inputs changes nothing of what it
does, from any state: not the final state, not a fault, not a refusal. -/
def Obligations.NopsChangeNoOutcome : Prop :=
  ∀ (s : State) (ps : List PortInput),
    drive (ps.filter fun p => !isNopInput p) s = drive ps s

/-- Rule R108: fewer than 336 inputs after a START or a reset never make `header_valid` 1, so it takes
at least 337 steps from START. -/
def Obligations.HeaderNotValidBeforeAllBytes : Prop :=
  ∀ (s t : State) (p : PortInput) (ps : List PortInput), restarts p = true →
    ps.length < 336 → drive (p :: ps) s = .next t → t.headerValid = false

/-- Rule R57: capture is exact, from any state, for any bytes, with NOPs anywhere. Samplings too may
stand anywhere: that a sampling is a step is the model's choice (log entry 3). -/
def Obligations.CaptureIsExact : Prop :=
  ∀ (s : State) (ps : List PortInput) (img : List Byte),
    pushedBytes ps = some img → img.length = 0x150 →
    ∃ t, drive (inputOf .start :: ps) s = .next t ∧
      t.phase = .done ∧ t.ofs.val = 0x150 ∧ t.cause = .none ∧
      (∀ i, i < 80 → img[0x100 + i]? = some (headerByte t.hdr i)) ∧
      t.acc = hdrChecksum t.hdr

/-- Rule R58: the outcome of a load, as PHASE, OFS and CAUSE, depends only on how many bytes come
before the first END or ABORT; with neither, a short load stays busy. Samplings may stand among the
inputs: that a sampling is a step is the model's choice (log entry 3). -/
def Obligations.LoadOutcomeByNumberOfBytes : Prop :=
  ∀ (s : State) (ps : List PortInput) (bs : List Byte), pushedBytes ps = some bs →
    (∃ t, drive (inputOf .start :: ps) s = .next t ∧
      if 0x150 ≤ bs.length then t.phase = .done ∧ t.ofs.val = 0x150 ∧ t.cause = .none
      else t.busy = true ∧ t.ofs.val = bs.length ∧ t.cause = .none) ∧
    (∃ t, drive (inputOf .start :: (ps ++ [inputOf .endStream])) s = .next t ∧
      if 0x150 ≤ bs.length then t.phase = .done ∧ t.ofs.val = 0x150 ∧ t.cause = .none
      else t.phase = .error ∧ t.ofs.val = bs.length ∧ t.cause = .seek) ∧
    (∃ t, drive (inputOf .start :: (ps ++ [inputOf .abort])) s = .next t ∧
      if 0x150 ≤ bs.length then t.phase = .done ∧ t.ofs.val = 0x150 ∧ t.cause = .none
      else t.phase = .error ∧ t.ofs.val = bs.length ∧ t.cause = .streamRead)

/-- Rule R30 for the pseudo-command LOAD of rule R48: loading an image succeeds if and only if it has
at least 0x150 bytes, and then the header port shows its bytes; a shorter one ends in SEEK with its
length in `OFS`. -/
def Obligations.LoadSucceedsIffImageHoldsHeader : Prop :=
  ∀ (s : State) (img : List Byte),
    ∃ t, drive (loadInputs img) s = .next t ∧
      (t.headerValid = true ↔ 0x150 ≤ img.length) ∧
      (0x150 ≤ img.length → ∃ d, t.dataPorts = some d ∧
        ∀ i, i < 80 → img[0x100 + i]? = some (headerByte d.hdrBytes i)) ∧
      (img.length < 0x150 →
        t.phase = .error ∧ t.cause = .seek ∧ t.ofs.val = img.length ∧ t.dataPorts = none)

/-- Rules R19, R21 and R22: after a START or a reset nothing of what the unit held before can ever
reach an output: two units in any two states, given the same inputs from then on, show the same. -/
def Obligations.EarlierStateCannotReachAnOutput : Prop :=
  ∀ (s₁ s₂ t₁ : State) (p : PortInput) (ps : List PortInput), restarts p = true →
    drive (p :: ps) s₁ = .next t₁ →
    ∃ t₂, drive (p :: ps) s₂ = .next t₂ ∧ sameOutputs t₁ t₂

/-- Rule R48: the expansions of the pseudo-commands. -/
def Obligations.PseudoCommandsExpand : Prop :=
  ∀ (n : Nat) (b : Byte) (bs image : List Byte),
    traceInputs [.pushN n b] = traceInputs (List.replicate n (.push b)) ∧
    traceInputs [.pushB bs] = traceInputs (bs.map .push) ∧
    traceInputs [.stream image] = traceInputs (image.map .push ++ [.endStream]) ∧
    traceInputs [.load image] = traceInputs [.start, .stream image] ∧
    traceInputs [.wait n] = traceInputs (List.replicate n .nop)

/-- Rule R91: a step of one unit leaves every other unit as it was, and takes place whenever that
unit's own step does, whatever the others hold. That units step one at a time, the stepping unit's
stop being the outcome, is the model's choice (log entry 10). -/
def Obligations.UnitsDoNotInteract : Prop :=
  (∀ (us vs : List State) (k : Nat), stepUnit us k = some (.next vs) →
    vs.length = us.length ∧ (∀ j, j ≠ k → vs[j]? = us[j]?) ∧
    ∃ s t, us[k]? = some s ∧ step s = .next t ∧ vs[k]? = some t) ∧
  (∀ (us : List State) (k : Nat) (s t : State), us[k]? = some s → step s = .next t →
    stepUnit us k = some (.next (us.set k t)))
end

