-- ==== Sys2Proof/Laws/Config.lean ====
section
/-! SUPPORT. The constants of rule R5 as numerals, for arithmetic. -/

namespace Sys2Proof.Config

@[simp] theorem headerBase_eq : headerBase = 256 := rfl
@[simp] theorem headerWidth_eq : headerWidth = 80 := rfl
@[simp] theorem headerEnd_eq : headerEnd = 336 := rfl
@[simp] theorem ckFirst_eq : ckFirst = 308 := rfl
@[simp] theorem ckLast_eq : ckLast = 332 := rfl
@[simp] theorem ckCount_eq : ckCount = 25 := rfl
@[simp] theorem ckInit_eq : ckInit = 0#8 := rfl
@[simp] theorem rszUnit_eq : rszUnit = 32768#32 := rfl
@[simp] theorem rszMaxCode_eq : rszMaxCode = 8 := rfl

end Sys2Proof.Config
end

