-- ==== Sys2Proof/Laws/Operands.lean ====
section
/-! SUPPORT. Lemmas about reading and writing a header register and about the offset arithmetic. -/

namespace Sys2Proof.Machine

theorem headerByte_eq_getElem (h : HeaderFile) {i : Nat} (hi : i < 80) :
    headerByte h i = h[i] := by
  simp [headerByte, Vector.getD, hi]

/-- A register reads back the byte written to it, and no other register changes. -/
theorem headerByte_set (h : HeaderFile) (j : Nat) (b : Byte) {i : Nat} (hi : i < 80) :
    headerByte (h.setIfInBounds j b) i = if j = i then b else headerByte h i := by
  rw [headerByte_eq_getElem _ hi, headerByte_eq_getElem _ hi, Vector.getElem_setIfInBounds hi]

/-- Two header files that agree on all 80 registers are equal. -/
theorem headerFile_ext {h h' : HeaderFile} (e : ∀ i, i < 80 → headerByte h i = headerByte h' i) :
    h = h' := by
  ext i hi
  have := e i hi
  rw [headerByte_eq_getElem _ hi, headerByte_eq_getElem _ hi] at this
  rw [this]

@[simp] theorem nextOffset_val (o : Offset) : (nextOffset o).val = min (o.val + 1) 336 := by
  simp only [nextOffset, Config.headerEnd_eq, Fin.ofNat]
  omega

@[simp] theorem headerIndex_eq (o : Offset) : headerIndex o = o.val - 256 := rfl

@[simp] theorem inSkipRange_iff (o : Offset) : inSkipRange o = true ↔ o.val < 256 :=
  decide_eq_true_iff

@[simp] theorem inCaptureRange_iff (o : Offset) :
    inCaptureRange o = true ↔ 256 ≤ o.val ∧ o.val < 336 := by
  unfold inCaptureRange
  rw [Bool.and_eq_true, decide_eq_true_iff, decide_eq_true_iff]
  rfl

@[simp] theorem inChecksumRange_iff (n : Nat) :
    inChecksumRange n = true ↔ 308 ≤ n ∧ n ≤ 332 := by
  unfold inChecksumRange
  rw [Bool.and_eq_true, decide_eq_true_iff, decide_eq_true_iff]
  rfl

end Sys2Proof.Machine
end

