-- ==== Sys2Proof/Laws/ChecksumVerifier.lean ====
section
/-! SUPPORT. The streamed accumulator and the function over the whole header (rules R61, R64). -/

namespace Sys2Proof.Machine

/-- The partial sum looks at the registers below its bound only. -/
theorem partialChecksum_congr {h h' : HeaderFile} {n : Nat}
    (e : ∀ i, i < n → headerByte h i = headerByte h' i) :
    partialChecksum h n = partialChecksum h' n := by
  induction n with
  | zero => rfl
  | succ n ih =>
    simp only [partialChecksum]
    rw [ih fun i hi => e i (by omega), e n (by omega)]

/-- Before the range begins the partial sum is the start value. -/
theorem partialChecksum_before (h : HeaderFile) {n : Nat} (hn : n ≤ 52) :
    partialChecksum h n = 0#8 := by
  induction n with
  | zero => rfl
  | succ n ih =>
    have outside : ¬ inChecksumRange (Config.headerBase + n) = true := by simp; omega
    rw [partialChecksum, if_neg outside, ih (by omega)]

/-- After the range the partial sum stays. -/
theorem partialChecksum_after (h : HeaderFile) {n : Nat} (hn : 77 ≤ n) :
    partialChecksum h n = partialChecksum h 77 := by
  induction n, hn using Nat.le_induction with
  | base => rfl
  | succ n hn ih =>
    have outside : ¬ inChecksumRange (Config.headerBase + n) = true := by simp; omega
    rw [partialChecksum, if_neg outside, ih]

/-- Inside the range the partial sum is a left fold over the offsets passed so far. -/
theorem partialChecksum_inside (h : HeaderFile) {k : Nat} (hk : k ≤ 25) :
    partialChecksum h (52 + k) =
      (List.range' 308 k).foldl (fun acc o => ckStep acc (headerByte h (o - 256))) 0#8 := by
  induction k with
  | zero => exact partialChecksum_before h (by omega)
  | succ k ih =>
    have inside : inChecksumRange (Config.headerBase + (52 + k)) = true := by simp; omega
    rw [show 52 + (k + 1) = (52 + k) + 1 from rfl, partialChecksum, if_pos inside,
      ih (by omega), List.range'_concat, List.foldl_append]
    simp only [List.foldl_cons, List.foldl_nil, Nat.one_mul]
    rw [show 308 + k - 256 = 52 + k by omega]

/-- After all 80 bytes the accumulator is `hdr_checksum(HDR)`. -/
theorem partialChecksum_all (h : HeaderFile) : partialChecksum h 80 = hdrChecksum h := by
  rw [partialChecksum_after h (by omega), show 77 = 52 + 25 from rfl,
    partialChecksum_inside h (by omega)]
  rfl

/-- One more captured byte: a write at the bound, then one more step of the partial sum. -/
theorem partialChecksum_set (h : HeaderFile) {n : Nat} (hn : n < 80) (b : Byte) :
    partialChecksum (h.setIfInBounds n b) (n + 1) =
      if inChecksumRange (256 + n) then ckStep (partialChecksum h n) b else partialChecksum h n := by
  have below : partialChecksum (h.setIfInBounds n b) n = partialChecksum h n :=
    partialChecksum_congr fun i hi => by
      rw [headerByte_set _ _ _ (by omega), if_neg (by omega)]
  rw [partialChecksum, below, headerByte_set _ _ _ hn, if_pos rfl]
  rfl

end Sys2Proof.Machine
end

