-- ==== Sys2Proof/Laws/State.lean ====
section
/-! SUPPORT. One lemma per field of the state per named operation. -/

namespace Sys2Proof.Machine

/-! `resetStep` -/

@[simp] theorem resetStep_hdr (s : State) : s.resetStep.hdr = s.hdr := rfl
@[simp] theorem resetStep_ofs (s : State) : s.resetStep.ofs = 0 := rfl
@[simp] theorem resetStep_phase (s : State) : s.resetStep.phase = .idle := rfl
@[simp] theorem resetStep_cause (s : State) : s.resetStep.cause = .none := rfl
@[simp] theorem resetStep_acc (s : State) : s.resetStep.acc = Config.ckInit := rfl
@[simp] theorem resetStep_inputs (s : State) : s.resetStep.inputs = s.inputs := rfl
@[simp] theorem resetStep_drawn (s : State) : s.resetStep.drawn = s.drawn := rfl
@[simp] theorem resetStep_romSample (s : State) : s.resetStep.romSample = s.romSample := rfl

/-! `beginLoad` -/

@[simp] theorem beginLoad_hdr (s : State) : s.beginLoad.hdr = s.hdr := rfl
@[simp] theorem beginLoad_ofs (s : State) : s.beginLoad.ofs = 0 := rfl
@[simp] theorem beginLoad_phase (s : State) : s.beginLoad.phase = .skip := rfl
@[simp] theorem beginLoad_cause (s : State) : s.beginLoad.cause = .none := rfl
@[simp] theorem beginLoad_acc (s : State) : s.beginLoad.acc = Config.ckInit := rfl
@[simp] theorem beginLoad_inputs (s : State) : s.beginLoad.inputs = s.inputs := rfl
@[simp] theorem beginLoad_drawn (s : State) : s.beginLoad.drawn = s.drawn := rfl
@[simp] theorem beginLoad_romSample (s : State) : s.beginLoad.romSample = s.romSample := rfl

/-! `raise` -/

@[simp] theorem raise_hdr (c : Cause) (s : State) : (s.raise c).hdr = s.hdr := rfl
@[simp] theorem raise_ofs (c : Cause) (s : State) : (s.raise c).ofs = s.ofs := rfl
@[simp] theorem raise_phase (c : Cause) (s : State) : (s.raise c).phase = .error := rfl
@[simp] theorem raise_cause (c : Cause) (s : State) : (s.raise c).cause = c := rfl
@[simp] theorem raise_acc (c : Cause) (s : State) : (s.raise c).acc = s.acc := rfl
@[simp] theorem raise_inputs (c : Cause) (s : State) : (s.raise c).inputs = s.inputs := rfl
@[simp] theorem raise_drawn (c : Cause) (s : State) : (s.raise c).drawn = s.drawn := rfl
@[simp] theorem raise_romSample (c : Cause) (s : State) : (s.raise c).romSample = s.romSample := rfl

/-! `dropByte` -/

@[simp] theorem dropByte_hdr (s : State) : s.dropByte.hdr = s.hdr := rfl
@[simp] theorem dropByte_ofs (s : State) : s.dropByte.ofs = nextOffset s.ofs := rfl
@[simp] theorem dropByte_phase (s : State) :
    s.dropByte.phase = if s.ofs.val + 1 = Config.headerBase then .capture else s.phase := rfl
@[simp] theorem dropByte_cause (s : State) : s.dropByte.cause = s.cause := rfl
@[simp] theorem dropByte_acc (s : State) : s.dropByte.acc = s.acc := rfl
@[simp] theorem dropByte_inputs (s : State) : s.dropByte.inputs = s.inputs := rfl
@[simp] theorem dropByte_drawn (s : State) : s.dropByte.drawn = s.drawn := rfl
@[simp] theorem dropByte_romSample (s : State) : s.dropByte.romSample = s.romSample := rfl

/-! `captureByte` -/

@[simp] theorem captureByte_hdr (b : Byte) (s : State) :
    (s.captureByte b).hdr = s.hdr.setIfInBounds (headerIndex s.ofs) b := rfl
@[simp] theorem captureByte_ofs (b : Byte) (s : State) :
    (s.captureByte b).ofs = nextOffset s.ofs := rfl
@[simp] theorem captureByte_phase (b : Byte) (s : State) :
    (s.captureByte b).phase = if s.ofs.val + 1 = Config.headerEnd then .done else s.phase := rfl
@[simp] theorem captureByte_cause (b : Byte) (s : State) : (s.captureByte b).cause = s.cause := rfl
@[simp] theorem captureByte_acc (b : Byte) (s : State) :
    (s.captureByte b).acc = if inChecksumRange s.ofs.val then ckStep s.acc b else s.acc := rfl
@[simp] theorem captureByte_inputs (b : Byte) (s : State) :
    (s.captureByte b).inputs = s.inputs := rfl
@[simp] theorem captureByte_drawn (b : Byte) (s : State) : (s.captureByte b).drawn = s.drawn := rfl
@[simp] theorem captureByte_romSample (b : Byte) (s : State) :
    (s.captureByte b).romSample = s.romSample := rfl

/-! `recordSample` -/

@[simp] theorem recordSample_hdr (r : Option RomSizeSample) (s : State) :
    (s.recordSample r).hdr = s.hdr := rfl
@[simp] theorem recordSample_ofs (r : Option RomSizeSample) (s : State) :
    (s.recordSample r).ofs = s.ofs := rfl
@[simp] theorem recordSample_phase (r : Option RomSizeSample) (s : State) :
    (s.recordSample r).phase = s.phase := rfl
@[simp] theorem recordSample_cause (r : Option RomSizeSample) (s : State) :
    (s.recordSample r).cause = s.cause := rfl
@[simp] theorem recordSample_acc (r : Option RomSizeSample) (s : State) :
    (s.recordSample r).acc = s.acc := rfl
@[simp] theorem recordSample_inputs (r : Option RomSizeSample) (s : State) :
    (s.recordSample r).inputs = s.inputs := rfl
@[simp] theorem recordSample_drawn (r : Option RomSizeSample) (s : State) :
    (s.recordSample r).drawn = s.drawn := rfl
@[simp] theorem recordSample_romSample (r : Option RomSizeSample) (s : State) :
    (s.recordSample r).romSample = r := rfl

/-! `present` -/

@[simp] theorem present_hdr (ps : List PortInput) (s : State) : (s.present ps).hdr = s.hdr := rfl
@[simp] theorem present_ofs (ps : List PortInput) (s : State) : (s.present ps).ofs = s.ofs := rfl
@[simp] theorem present_phase (ps : List PortInput) (s : State) :
    (s.present ps).phase = s.phase := rfl
@[simp] theorem present_cause (ps : List PortInput) (s : State) :
    (s.present ps).cause = s.cause := rfl
@[simp] theorem present_acc (ps : List PortInput) (s : State) : (s.present ps).acc = s.acc := rfl
@[simp] theorem present_inputs (ps : List PortInput) (s : State) : (s.present ps).inputs = ps := rfl
@[simp] theorem present_drawn (ps : List PortInput) (s : State) :
    (s.present ps).drawn = s.drawn := rfl
@[simp] theorem present_romSample (ps : List PortInput) (s : State) :
    (s.present ps).romSample = s.romSample := rfl

/-! `withLoadedHeader` -/

@[simp] theorem withLoadedHeader_hdr (h : HeaderFile) (s : State) :
    (s.withLoadedHeader h).hdr = h := rfl
@[simp] theorem withLoadedHeader_ofs (h : HeaderFile) (s : State) :
    (s.withLoadedHeader h).ofs = Fin.ofNat 0x151 Config.headerEnd := rfl
@[simp] theorem withLoadedHeader_phase (h : HeaderFile) (s : State) :
    (s.withLoadedHeader h).phase = .done := rfl
@[simp] theorem withLoadedHeader_cause (h : HeaderFile) (s : State) :
    (s.withLoadedHeader h).cause = .none := rfl
@[simp] theorem withLoadedHeader_acc (h : HeaderFile) (s : State) :
    (s.withLoadedHeader h).acc = hdrChecksum h := rfl
@[simp] theorem withLoadedHeader_inputs (h : HeaderFile) (s : State) :
    (s.withLoadedHeader h).inputs = s.inputs := rfl
@[simp] theorem withLoadedHeader_drawn (h : HeaderFile) (s : State) :
    (s.withLoadedHeader h).drawn = s.drawn := rfl
@[simp] theorem withLoadedHeader_romSample (h : HeaderFile) (s : State) :
    (s.withLoadedHeader h).romSample = s.romSample := rfl

/-! `consume`: only the record of the host moves on. -/

@[simp] theorem consume_hdr (s : State) : s.consume.hdr = s.hdr := by
  unfold State.consume; split <;> rfl
@[simp] theorem consume_ofs (s : State) : s.consume.ofs = s.ofs := by
  unfold State.consume; split <;> rfl
@[simp] theorem consume_phase (s : State) : s.consume.phase = s.phase := by
  unfold State.consume; split <;> rfl
@[simp] theorem consume_cause (s : State) : s.consume.cause = s.cause := by
  unfold State.consume; split <;> rfl
@[simp] theorem consume_acc (s : State) : s.consume.acc = s.acc := by
  unfold State.consume; split <;> rfl
@[simp] theorem consume_romSample (s : State) : s.consume.romSample = s.romSample := by
  unfold State.consume; split <;> rfl

theorem consume_cons {s : State} {p : PortInput} {rest : List PortInput} (h : s.inputs = p :: rest) :
    s.consume = { s with inputs := rest } := by
  simp [State.consume, h]

theorem presented_cons {s : State} {p : PortInput} {rest : List PortInput}
    (h : s.inputs = p :: rest) : s.presented = p := by
  simp [State.presented, h]

theorem consume_nil {s : State} (h : s.inputs = []) :
    s.consume = { s with drawn := s.drawn + 1 } := by
  simp [State.consume, h]

theorem presented_nil {s : State} (h : s.inputs = []) :
    s.presented = Config.hostInput s.drawn := by
  simp [State.presented, h]

end Sys2Proof.Machine
end

