-- ==== Sys2Proof/Laws/Ops.lean ====
section
/-! SUPPORT. Each shared operation and each meaning, said once: what it answers and when. -/

namespace Sys2Proof.Machine

/-- The decoder's answer to a sampling: always a next state, the unit unchanged. -/
theorem answerRomSize_eq (code : Byte) (s : State) :
    answerRomSize code s = .next (s.recordSample
      (if s.phase = .done then some ⟨romSize code, romSizeRecognised code⟩ else none)) := by
  by_cases h : s.phase = .done <;> simp [answerRomSize, State.headerValid, h]

theorem execPush_skip {s : State} (b : Byte) (h : s.phase = .skip) (r : s.ofs.val < 256) :
    execPush b s = .next s.dropByte := by
  simp [execPush, h, r]

theorem execPush_capture {s : State} (b : Byte) (h : s.phase = .capture)
    (r : 256 ≤ s.ofs.val) (r' : s.ofs.val < 336) :
    execPush b s = .next (s.captureByte b) := by
  simp [execPush, h, r, r']

theorem execPush_ignored {s : State} (b : Byte) (h : s.phase ≠ .skip) (h' : s.phase ≠ .capture) :
    execPush b s = .next s := by
  unfold execPush; split <;> first | rfl | (rename_i e; simp_all)

/-- Everything a PUSH can do. -/
theorem execPush_cases {s t : State} {b : Byte} (e : execPush b s = .next t) :
    (s.phase = .skip ∧ s.ofs.val < 256 ∧ t = s.dropByte) ∨
    (s.phase = .capture ∧ 256 ≤ s.ofs.val ∧ s.ofs.val < 336 ∧ t = s.captureByte b) ∨
    (s.phase ≠ .skip ∧ s.phase ≠ .capture ∧ t = s) := by
  cases hp : s.phase <;> simp only [execPush, hp] at e
  case skip =>
    split at e
    · rename_i r
      cases e
      exact .inl ⟨rfl, by simpa using r, rfl⟩
    · cases e
  case capture =>
    split at e
    · rename_i r
      cases e
      obtain ⟨r, r'⟩ := (inCaptureRange_iff _).mp r
      exact .inr (.inl ⟨rfl, r, r', rfl⟩)
    · cases e
  all_goals cases e; exact .inr (.inr ⟨by simp, by simp, rfl⟩)

theorem execEnd_running {s : State} (h : s.phase = .skip ∨ s.phase = .capture) :
    execEnd s = .next (s.raise .seek) := by
  rcases h with h | h <;> simp [execEnd, h]

theorem execEnd_ignored {s : State} (h : s.phase ≠ .skip) (h' : s.phase ≠ .capture) :
    execEnd s = .next s := by
  unfold execEnd; split <;> first | rfl | simp_all

theorem execAbort_running {s : State} (h : s.phase = .skip ∨ s.phase = .capture) :
    execAbort s = .next (s.raise .streamRead) := by
  rcases h with h | h <;> simp [execAbort, h]

theorem execAbort_ignored {s : State} (h : s.phase ≠ .skip) (h' : s.phase ≠ .capture) :
    execAbort s = .next s := by
  unfold execAbort; split <;> first | rfl | simp_all

/-- A row of the ROM size decoder runs as one sampling of the code it encodes to. -/
theorem exec_rsc {i : Instr} {code : Byte} (h : encode i = .rsc code) (s : State) :
    exec i s = answerRomSize code s := by
  cases i <;> cases h <;> rfl

/-- An instruction that decodes is never refused. -/
theorem exec_not_refused (i : Instr) (s : State) (r : Refusal) : exec i s ≠ .refused r := by
  intro e
  cases i
  case push b =>
    simp only [exec, execPush] at e
    split at e <;> (try split at e) <;> cases e
  case endStream => simp only [exec, execEnd] at e; split at e <;> cases e
  case abort => simp only [exec, execAbort] at e; split at e <;> cases e
  all_goals cases e

/-- Only PUSH faults, and only where the offset lies outside the range of the phase. -/
theorem exec_fault_cases {i : Instr} {s : State} {r : Fault} (e : exec i s = .fault r) :
    (∃ b, i = .push b) ∧
    ((s.phase = .skip ∧ 256 ≤ s.ofs.val ∧ r = .offsetOutsidePhase .skip s.ofs.val) ∨
     (s.phase = .capture ∧ (s.ofs.val < 256 ∨ 336 ≤ s.ofs.val) ∧
       r = .offsetOutsidePhase .capture s.ofs.val)) := by
  cases i
  case push b =>
    refine ⟨⟨b, rfl⟩, ?_⟩
    simp only [exec, execPush] at e
    split at e
    case h_1 h =>
      split at e
      · cases e
      · rename_i r; cases e; simp at r; exact .inl ⟨h, r, rfl⟩
    case h_2 h =>
      split at e
      · cases e
      · rename_i r; cases e; simp at r; exact .inr ⟨h, by omega, rfl⟩
    all_goals cases e
  case endStream => simp only [exec, execEnd] at e; split at e <;> cases e
  case abort => simp only [exec, execAbort] at e; split at e <;> cases e
  all_goals cases e

/-- What a command word can mean, by its `cmd` field (rule R39). -/
theorem decodeCommand_cases {w : CommandWord} {i : Instr} (h : decode (.cmd w) = .ok i) :
    (cmdField w = 0#3 ∧ i = .nop) ∨ (cmdField w = 1#3 ∧ i = .start) ∨
    (cmdField w = 2#3 ∧ i = .push (dataField w)) ∨ (cmdField w = 3#3 ∧ i = .endStream) ∨
    (cmdField w = 4#3 ∧ i = .abort) := by
  change decodeCommand w = .ok i at h
  unfold decodeCommand at h
  split at h <;> cases h <;> simp [*]

/-- A ROM size code never decodes to a command. -/
theorem decodeRomSizeCode_notCommand (code : Byte) (w : CommandWord) :
    encode (decodeRomSizeCode code) ≠ .cmd w := by
  have h : ∀ c : Byte, (encode (decodeRomSizeCode c)).width = 8 := by decide
  intro e
  have := h code
  rw [e] at this
  cases this

/-- A sampling leaves everything but the host's note as it was. -/
theorem exec_romSizeCode (code : Byte) (s : State) :
    ∃ r, exec (decodeRomSizeCode code) s = .next (s.recordSample r) := by
  cases h : encode (decodeRomSizeCode code) with
  | cmd w =>
    exact absurd h (decodeRomSizeCode_notCommand code w)
  | rsc c => exact ⟨_, exec_rsc h s⟩

/-- Everything a step that answers a next state can be. -/
theorem step_cases {s t : State} (e : step s = .next t) :
    (∃ w, s.presented = .edge true w ∧ t = s.consume.resetStep) ∨
    (∃ w, s.presented = .edge false w ∧ cmdField w = 0#3 ∧ t = s.consume) ∨
    (∃ w, s.presented = .edge false w ∧ cmdField w = 1#3 ∧ t = s.consume.beginLoad) ∨
    (∃ w, s.presented = .edge false w ∧ cmdField w = 2#3 ∧
      execPush (dataField w) s.consume = .next t) ∨
    (∃ w, s.presented = .edge false w ∧ cmdField w = 3#3 ∧ execEnd s.consume = .next t) ∨
    (∃ w, s.presented = .edge false w ∧ cmdField w = 4#3 ∧ execAbort s.consume = .next t) ∨
    (s.presented = .sampleRomSize ∧ ∃ r, t = s.consume.recordSample r) := by
  unfold step State.fetch at e
  cases hp : s.presented with
  | sampleRomSize =>
    obtain ⟨r, hr⟩ := exec_romSizeCode (headerByte s.hdr 0x48) s.consume
    simp only [hp, hr] at e
    cases e
    exact .inr (.inr (.inr (.inr (.inr (.inr ⟨rfl, r, rfl⟩)))))
  | edge rst w =>
    cases rst with
    | true => simp only [hp] at e; cases e; exact .inl ⟨w, rfl, rfl⟩
    | false =>
      cases hd : decode (.cmd w) with
      | error d => simp only [hp, hd] at e; cases e
      | ok i =>
        simp only [hp, hd] at e
        rcases decodeCommand_cases hd with ⟨c, rfl⟩ | ⟨c, rfl⟩ | ⟨c, rfl⟩ | ⟨c, rfl⟩ | ⟨c, rfl⟩
        · cases e; exact .inr (.inl ⟨w, rfl, c, rfl⟩)
        · cases e; exact .inr (.inr (.inl ⟨w, rfl, c, rfl⟩))
        · exact .inr (.inr (.inr (.inl ⟨w, rfl, c, e⟩)))
        · exact .inr (.inr (.inr (.inr (.inl ⟨w, rfl, c, e⟩))))
        · exact .inr (.inr (.inr (.inr (.inr (.inl ⟨w, rfl, c, e⟩)))))

end Sys2Proof.Machine
end

