-- ==== Sys2Proof/Laws/PerInstr.lean ====
section
/-! SUPPORT. Statements about every instruction as syntax, one lemma per constructor. -/

namespace Sys2Proof.Laws.EncodesInRow

/-- An instruction's encoding has the width of its row of the opcode table and the row's fixed bits. -/
def Statement (i : Instr) : Prop := (encode i).liesIn i.tableRow = true

theorem nop : Statement .nop := rfl
theorem start : Statement .start := rfl
theorem push (data : Byte) : Statement (.push data) := by revert data; unfold Statement; decide
theorem endStream : Statement .endStream := rfl
theorem abort : Statement .abort := rfl
theorem romsize0 : Statement .romsize0 := rfl
theorem romsize1 : Statement .romsize1 := rfl
theorem romsize2 : Statement .romsize2 := rfl
theorem romsize3 : Statement .romsize3 := rfl
theorem romsize4 : Statement .romsize4 := rfl
theorem romsize5 : Statement .romsize5 := rfl
theorem romsize6 : Statement .romsize6 := rfl
theorem romsize7 : Statement .romsize7 := rfl
theorem romsize8 : Statement .romsize8 := rfl
theorem romsizeFallback0 : Statement .romsizeFallback0 := rfl
theorem romsizeFallback1 (c : BitVec 1) : Statement (.romsizeFallback1 c) := by
  revert c; unfold Statement; decide
theorem romsizeFallback2 (c : BitVec 2) : Statement (.romsizeFallback2 c) := by
  revert c; unfold Statement; decide
theorem romsizeFallback3 (c : BitVec 4) : Statement (.romsizeFallback3 c) := by
  revert c; unfold Statement; decide
theorem romsizeFallback4 (c : BitVec 5) : Statement (.romsizeFallback4 c) := by
  revert c; unfold Statement; decide
theorem romsizeFallback5 (c : BitVec 6) : Statement (.romsizeFallback5 c) := by
  revert c; unfold Statement; decide
theorem romsizeFallback6 (c : BitVec 7) : Statement (.romsizeFallback6 c) := by
  revert c; unfold Statement; decide

end Sys2Proof.Laws.EncodesInRow
end

