-- ==== Sys2Proof/Laws/Run.lean ====
section
/-! SUPPORT. Running a sequence of inputs, one step at a time. -/

namespace Sys2Proof.Machine

/-- A run of the host interface goes on from the next state of its first step. -/
theorem core_run_next (M : Host.Core) (n : Nat) {s t : M.State} (h : M.step s = .next t) :
    M.run (n + 1) s = M.run n t := by
  simp [Host.Core.run, h]

theorem core_run_fault (M : Host.Core) (n : Nat) {s : M.State} {r : M.Fault}
    (h : M.step s = .fault r) : M.run (n + 1) s = .fault r := by
  simp [Host.Core.run, h]

theorem core_run_refused (M : Host.Core) (n : Nat) {s : M.State} {r : M.Refusal}
    (h : M.step s = .refused r) : M.run (n + 1) s = .refused r := by
  simp [Host.Core.run, h]

/-- The model's `run` is the host interface's. -/
theorem run_eq_core (n : Nat) (s : State) : run n s = Host.Core.run core n s := by
  induction n generalizing s with
  | zero => rfl
  | succ n ih =>
    cases h : step s with
    | next t =>
      refine Eq.trans ?_ (core_run_next core n (s := s) (t := t) h).symm
      simp only [run, h]
      exact ih t
    | fault r =>
      refine Eq.trans ?_ (core_run_fault core n (s := s) (r := r) h).symm
      simp only [run, h]
      rfl
    | refused r =>
      refine Eq.trans ?_ (core_run_refused core n (s := s) (r := r) h).symm
      simp only [run, h]
      rfl

/-- An instruction does not look at the inputs still scheduled, and leaves them. -/
theorem exec_present {i : Instr} {s t : State} (e : exec i s = .next t) (ps : List PortInput) :
    exec i (s.present ps) = .next (t.present ps) := by
  cases i
  case push b =>
    rcases execPush_cases e with ⟨h, r, rfl⟩ | ⟨h, r, r', rfl⟩ | ⟨h, h', rfl⟩
    · exact execPush_skip b h r
    · exact execPush_capture b h r r'
    · exact execPush_ignored b h h'
  case endStream =>
    by_cases h : s.phase = .skip ∨ s.phase = .capture
    · cases (execEnd_running h).symm.trans e; exact execEnd_running h
    · push Not at h
      cases (execEnd_ignored h.1 h.2).symm.trans e; exact execEnd_ignored h.1 h.2
  case abort =>
    by_cases h : s.phase = .skip ∨ s.phase = .capture
    · cases (execAbort_running h).symm.trans e; exact execAbort_running h
    · push Not at h
      cases (execAbort_ignored h.1 h.2).symm.trans e; exact execAbort_ignored h.1 h.2
  all_goals cases e; rfl

/-- Nor do the scheduled inputs change how an instruction faults. -/
theorem exec_present_fault {i : Instr} {s : State} {r : Fault} (e : exec i s = .fault r)
    (ps : List PortInput) : exec i (s.present ps) = .fault r := by
  cases h : exec i (s.present ps) with
  | fault r' =>
    obtain ⟨-, c⟩ := exec_fault_cases e
    obtain ⟨-, c'⟩ := exec_fault_cases h
    rcases c with ⟨p, o, rfl⟩ | ⟨p, o, rfl⟩ <;> rcases c' with ⟨p', o', rfl⟩ | ⟨p', o', rfl⟩ <;>
      simp_all
  | next t =>
    have back := exec_present h s.inputs
    rw [show (s.present ps).present s.inputs = s from rfl, e] at back
    cases back
  | refused r' => exact absurd h (exec_not_refused _ _ _)

@[simp] theorem present_present (ps qs : List PortInput) (s : State) :
    (s.present qs).present ps = s.present ps := rfl

@[simp] theorem presented_present (p : PortInput) (ps : List PortInput) (s : State) :
    (s.present (p :: ps)).presented = p := rfl

@[simp] theorem consume_present (p : PortInput) (ps : List PortInput) (s : State) :
    (s.present (p :: ps)).consume = s.present ps := rfl

theorem drive_nil (s : State) : drive [] s = .next (s.present []) := rfl

/-- A step takes the first input and leaves the rest scheduled. -/
theorem step_present_inputs {s t : State} {p : PortInput} {ps : List PortInput}
    (e : step (s.present (p :: ps)) = .next t) : t.present ps = t := by
  rcases step_cases e with ⟨w, -, rfl⟩ | ⟨w, -, -, rfl⟩ | ⟨w, -, -, rfl⟩ | ⟨w, -, -, e⟩ |
    ⟨w, -, -, e⟩ | ⟨w, -, -, e⟩ | ⟨-, r, rfl⟩
  · rfl
  · rfl
  · rfl
  · have := exec_present (i := .push (dataField w)) e ps
    exact (Host.Outcome.next.inj (e.symm.trans this)).symm
  · have := exec_present (i := .endStream) e ps
    exact (Host.Outcome.next.inj (e.symm.trans this)).symm
  · have := exec_present (i := .abort) e ps
    exact (Host.Outcome.next.inj (e.symm.trans this)).symm
  · rfl

/-- The first input runs, then the rest are driven from the state it leaves. -/
theorem drive_cons {s t : State} {p : PortInput} {ps : List PortInput}
    (e : step (s.present (p :: ps)) = .next t) : drive (p :: ps) s = drive ps t := by
  show run (ps.length + 1) (s.present (p :: ps)) = run ps.length (t.present ps)
  simp only [run, e, step_present_inputs e]

/-- A drive that answers a next state begins with a step that does. -/
theorem drive_cons_cases {s u : State} {p : PortInput} {ps : List PortInput}
    (e : drive (p :: ps) s = .next u) :
    ∃ t, step (s.present (p :: ps)) = .next t ∧ drive ps t = .next u := by
  cases h : step (s.present (p :: ps)) with
  | next t => exact ⟨t, rfl, (drive_cons h).symm.trans e⟩
  | fault r => simp [drive, run, h] at e
  | refused r => simp [drive, run, h] at e

/-- Which inputs are scheduled behind the first makes no difference to its step. -/
theorem step_present_tail {s t : State} {p : PortInput} {ps : List PortInput}
    (e : step (s.present (p :: ps)) = .next t) (qs : List PortInput) :
    step (s.present (p :: qs)) = .next (t.present qs) := by
  simp only [step, State.fetch, presented_present, consume_present] at e ⊢
  cases p with
  | sampleRomSize =>
    have := exec_present e qs
    simpa using this
  | edge rst w =>
    cases rst with
    | true => cases e; rfl
    | false =>
      cases hd : decode (.cmd w) with
      | error d => simp [hd] at e
      | ok i =>
        simp only [hd] at e ⊢
        simpa using exec_present e qs

/-- A step that faults does so whichever inputs are scheduled behind. -/
theorem step_fault_tail {s : State} {p : PortInput} {ps : List PortInput} {r : Fault}
    (e : step (s.present (p :: ps)) = .fault r) (qs : List PortInput) :
    step (s.present (p :: qs)) = .fault r := by
  simp only [step, State.fetch, presented_present, consume_present] at e ⊢
  cases p with
  | sampleRomSize => simpa using exec_present_fault e qs
  | edge rst w =>
    cases rst with
    | true => cases e
    | false =>
      cases hd : decode (.cmd w) with
      | error d => simp [hd] at e
      | ok i =>
        simp only [hd] at e ⊢
        simpa using exec_present_fault e qs

/-- A step that is refused is so whichever inputs are scheduled behind. -/
theorem step_refused_tail {s : State} {p : PortInput} {ps : List PortInput} {r : Refusal}
    (e : step (s.present (p :: ps)) = .refused r) (qs : List PortInput) :
    step (s.present (p :: qs)) = .refused r := by
  simp only [step, State.fetch, presented_present] at e ⊢
  cases p with
  | sampleRomSize => exact absurd e (exec_not_refused _ _ _)
  | edge rst w =>
    cases rst with
    | true => cases e
    | false =>
      cases hd : decode (.cmd w) with
      | error d => simpa [hd] using e
      | ok i =>
        simp only [hd] at e
        exact absurd e (exec_not_refused _ _ _)

/-- A drive stops with its first step's fault. -/
theorem drive_fault {s : State} {p : PortInput} {ps : List PortInput} {r : Fault}
    (e : step (s.present (p :: ps)) = .fault r) : drive (p :: ps) s = .fault r := by
  simp [drive, run, e]

/-- A drive stops with its first step's refusal. -/
theorem drive_refused {s : State} {p : PortInput} {ps : List PortInput} {r : Refusal}
    (e : step (s.present (p :: ps)) = .refused r) : drive (p :: ps) s = .refused r := by
  simp [drive, run, e]

/-- Driving two sequences one after the other. -/
theorem drive_append {s t : State} {ps : List PortInput} (e : drive ps s = .next t)
    (qs : List PortInput) : drive (ps ++ qs) s = drive qs t := by
  induction ps generalizing s with
  | nil => cases e; rfl
  | cons p ps ih =>
    obtain ⟨u, hu, e⟩ := drive_cons_cases e
    rw [List.cons_append, drive_cons (step_present_tail hu (ps ++ qs))]
    have : drive (ps ++ qs) (u.present (ps ++ qs)) = drive (ps ++ qs) u := rfl
    rw [this, ih e]

/-- PUSH commands of an image give the load exactly the image. -/
theorem pushedBytes_pushes (image : List Byte) :
    pushedBytes (image.map fun b => inputOf (.push b)) = some image := by
  have fields : ∀ b : Byte,
      cmdField (commandWord 2#3 b) = 2#3 ∧ dataField (commandWord 2#3 b) = b := by decide
  induction image with
  | nil => rfl
  | cons b rest ih =>
    simp only [List.map_cons, inputOf, encode, pushedBytes, fields] at ih ⊢
    simp [ih]

end Sys2Proof.Machine
end

