-- ==== Sys2Proof/Tests/Slice0.lean ====
section
/-! SUPPORT. Tests against the spec's own encodings, examples and vectors (95_test_vectors.md), and a
witness for each obligation that has hypotheses. -/

namespace Sys2Proof.Tests

open Sys2Proof Sys2Proof.Machine

/-! Well-formedness: the reserved command words (rule R41). -/

theorem test_reserved5_ill_formed : (PortInput.edge false 0b10100000000#11).wellFormed = false := by
  decide
theorem test_reserved6_ill_formed : (PortInput.edge false 0b11011111111#11).wellFormed = false := by
  decide
theorem test_reserved7_ill_formed : (PortInput.edge false 0b11100000001#11).wellFormed = false := by
  decide
theorem test_reserved_under_reset_well_formed :
    (PortInput.edge true 0b11100000001#11).wellFormed = true := by decide

/-! Decoding: one word per constructor, written out from rule R39 and the RSC rows; bits that the row
leaves free are not all zero where it has some. -/

theorem test_decode_nop : decode (.cmd 0b00010110001#11) = .ok .nop := by decide
theorem test_decode_start : decode (.cmd 0b00111111111#11) = .ok .start := by decide
theorem test_decode_push : decode (.cmd 0b01011001110#11) = .ok (.push 0xCE#8) := by decide
theorem test_decode_end : decode (.cmd 0b01100000001#11) = .ok .endStream := by decide
theorem test_decode_abort : decode (.cmd 0b10010000000#11) = .ok .abort := by decide
theorem test_decode_reserved5 :
    decode (.cmd 0b10100000000#11) = .error (.reservedCommand 0b101#3) := by decide
theorem test_decode_reserved6 :
    decode (.cmd 0b11000000000#11) = .error (.reservedCommand 0b110#3) := by decide
theorem test_decode_reserved7 :
    decode (.cmd 0b11111111111#11) = .error (.reservedCommand 0b111#3) := by decide
theorem test_decode_romsize0 : decode (.rsc 0b00000000#8) = .ok .romsize0 := by decide
theorem test_decode_romsize1 : decode (.rsc 0b00000001#8) = .ok .romsize1 := by decide
theorem test_decode_romsize2 : decode (.rsc 0b00000010#8) = .ok .romsize2 := by decide
theorem test_decode_romsize3 : decode (.rsc 0b00000011#8) = .ok .romsize3 := by decide
theorem test_decode_romsize4 : decode (.rsc 0b00000100#8) = .ok .romsize4 := by decide
theorem test_decode_romsize5 : decode (.rsc 0b00000101#8) = .ok .romsize5 := by decide
theorem test_decode_romsize6 : decode (.rsc 0b00000110#8) = .ok .romsize6 := by decide
theorem test_decode_romsize7 : decode (.rsc 0b00000111#8) = .ok .romsize7 := by decide
theorem test_decode_romsize8 : decode (.rsc 0b00001000#8) = .ok .romsize8 := by decide
theorem test_decode_fallback0 : decode (.rsc 0b00001001#8) = .ok .romsizeFallback0 := by decide
theorem test_decode_fallback1 :
    decode (.rsc 0b00001011#8) = .ok (.romsizeFallback1 0b1#1) := by decide
theorem test_decode_fallback2 :
    decode (.rsc 0b00001110#8) = .ok (.romsizeFallback2 0b10#2) := by decide
theorem test_decode_fallback3 :
    decode (.rsc 0b00010110#8) = .ok (.romsizeFallback3 0b0110#4) := by decide
theorem test_decode_fallback4 :
    decode (.rsc 0b00110001#8) = .ok (.romsizeFallback4 0b10001#5) := by decide
theorem test_decode_fallback5 :
    decode (.rsc 0b01010100#8) = .ok (.romsizeFallback5 0b010100#6) := by decide
theorem test_decode_fallback6 :
    decode (.rsc 0b10000001#8) = .ok (.romsizeFallback6 0b0000001#7) := by decide

/-- Canonical words, rule R40. -/
theorem test_encode_canonical :
    encode .nop = .cmd 0x000#11 ∧ encode .start = .cmd 0x100#11 ∧
    encode (.push 0xFC#8) = .cmd 0x2FC#11 ∧ encode .endStream = .cmd 0x300#11 ∧
    encode .abort = .cmd 0x400#11 := by decide

/-- The table's numbering: a command row has 11 bits, two whole bytes; a size code one byte. -/
theorem test_table_word_push : decodeTableWord 16 0x2CE = some (.push 0xCE#8) := by decide
theorem test_table_word_romsize : decodeTableWord 8 0x08 = some .romsize8 := by decide
theorem test_table_word_reserved : decodeTableWord 16 0x500 = none := by decide
theorem test_table_word_too_wide : decodeTableWord 16 0x800 = none := by decide

/-- Trace notation, rule R47: "`PUSH 0xCE` is 0x2CE". -/
theorem test_trace_text :
    commandText (.push 0xCE#8) = some ['P', 'U', 'S', 'H', ' ', '0', 'x', 'C', 'E'] ∧
    hexWord 0x2CE#11 = ['2', 'C', 'E'] := by decide

/-! Small states -/

/-- A unit in the given phase, offset, cause and accumulator, its header registers as after reset. -/
def unitAt (p : Phase) (o : Offset) (c : Cause) (a : Byte) : State :=
  { State.reset with phase := p, ofs := o, cause := c, acc := a }

/-- PHASE, OFS, CAUSE and ACC after a step, where there is a next state. -/
def control (o : Host.Outcome State Fault Refusal) : Option (Phase × Nat × Cause × Byte) :=
  match o with
  | .next t => some (t.phase, t.ofs.val, t.cause, t.acc)
  | .fault _ => none
  | .refused _ => none

/-- A step in which the host presents a command word. -/
def command (w : CommandWord) (s : State) : Host.Outcome State Fault Refusal :=
  step (s.present [.edge false w])

/-- A header whose checksum range holds these bytes and whose other bytes are 0. -/
def rangeHeader (bs : List Byte) : HeaderFile :=
  Vector.ofFn fun i : Fin 80 => if 0x34 ≤ i.val ∧ i.val ≤ 0x4C then bs.getD (i.val - 0x34) 0#8 else 0#8

/-- What the host gets by sampling the decoder's ports on a loaded header with this size code. -/
def sampled (code : Byte) : Option RomSizeSample :=
  match step (State.reset.placeWord (.rsc code)) with
  | .next t => t.romSample
  | .fault _ => none
  | .refused _ => none

/-! The commands: the worked examples of rules R51 to R55 and rows of P1 and P3 -/

/-- R51's example. -/
theorem test_nop_keeps : control (command 0x000#11 (unitAt .capture 0x120 .none 0x00#8)) =
    some (.capture, 0x120, .none, 0x00#8) := by decide
/-- R52's example. -/
theorem test_start_leaves_error : control (command 0x100#11 (unitAt .error 0x14C .seek 0xBC#8)) =
    some (.skip, 0, .none, 0x00#8) := by decide
/-- R53's example: `HDR[0x34] = 0x52`, ACC 0xAD, OFS 0x135. -/
theorem test_push_first_summed :
    control (command 0x252#11 (unitAt .capture 0x134 .none 0x00#8)) =
      some (.capture, 0x135, .none, 0xAD#8) ∧
    headerByte ((unitAt .capture 0x134 .none 0x00#8).captureByte 0x52#8).hdr 0x34 = 0x52#8 := by
  decide
/-- P1, steps 256 and 333, 334, 336: the bytes at 0xFF, 0x14C, 0x14D and 0x14F. -/
theorem test_push_boundaries :
    control (command 0x2FC#11 (unitAt .skip 0xFF .none 0x00#8)) =
      some (.capture, 0x100, .none, 0x00#8) ∧
    control (command 0x200#11 (unitAt .capture 0x14C .none 0xBC#8)) =
      some (.capture, 0x14D, .none, 0xBB#8) ∧
    control (command 0x2BB#11 (unitAt .capture 0x14D .none 0xBB#8)) =
      some (.capture, 0x14E, .none, 0xBB#8) ∧
    control (command 0x200#11 (unitAt .capture 0x14F .none 0xBB#8)) =
      some (.done, 0x150, .none, 0xBB#8) := by decide
/-- R54's example, and P1 step 340: END ignored in DONE. -/
theorem test_end_in_capture : control (command 0x300#11 (unitAt .capture 0x14C .none 0xBC#8)) =
    some (.error, 0x14C, .seek, 0xBC#8) := by decide
theorem test_end_in_done : control (command 0x300#11 (unitAt .done 0x150 .none 0xBB#8)) =
    some (.done, 0x150, .none, 0xBB#8) := by decide
/-- R55's example, and V28: an ABORT after the first cause changes nothing. -/
theorem test_abort_in_skip : control (command 0x400#11 (unitAt .skip 0x010 .none 0x00#8)) =
    some (.error, 0x010, .streamRead, 0x00#8) := by decide
theorem test_abort_keeps_first_cause : control (command 0x400#11 (unitAt .error 0x120 .seek 0x00#8)) =
    some (.error, 0x120, .seek, 0x00#8) := by decide
/-- V60: reset wins over START. -/
theorem test_reset_wins :
    control (step ((unitAt .capture 0x140 .none 0x55#8).present [.edge true 0x100#11])) =
      some (.idle, 0, .none, 0x00#8) := by decide
/-- The next step runs a word placed for it, right after reset. -/
theorem test_fetch_word_runs_start : control (step (State.reset.withFetchWord 16 0x100)) =
    some (.skip, 0, .none, 0x00#8) := by decide

/-! The checksum: V7a to V7g, V8 to V18 -/

theorem test_ck_step :
    ckStep 0x00#8 0x00#8 = 0xFF#8 ∧ ckStep 0x00#8 0xFF#8 = 0x00#8 ∧ ckStep 0x00#8 0x01#8 = 0xFE#8 ∧
    ckStep 0x80#8 0x7F#8 = 0x00#8 ∧ ckStep 0x01#8 0x01#8 = 0xFF#8 ∧ ckStep 0xFF#8 0xFF#8 = 0xFF#8 ∧
    ckStep 0x10#8 0x20#8 = 0xEF#8 := by decide
/-- V10: "RUSTBOY TEST" and the code bytes of header A. -/
def headerARange : List Byte :=
  [0x52#8, 0x55#8, 0x53#8, 0x54#8, 0x42#8, 0x4F#8, 0x59#8, 0x20#8, 0x54#8, 0x45#8, 0x53#8, 0x54#8,
   0x00#8, 0x00#8, 0x00#8, 0x00#8, 0x30#8, 0x30#8, 0x00#8, 0x00#8, 0x00#8, 0x00#8, 0x01#8, 0x33#8,
   0x00#8]
theorem test_checksum_header_a :
    checksumSum (rangeHeader headerARange) = 1068 ∧
    hdrChecksum (rangeHeader headerARange) = 0xBB#8 := by decide
/-- V8, V9, V13, V15, V16 and V17. -/
theorem test_checksum_constants :
    hdrChecksum (rangeHeader []) = 0xE7#8 ∧
    hdrChecksum (rangeHeader (List.replicate 25 0xFF#8)) = 0x00#8 ∧
    hdrChecksum (rangeHeader (List.replicate 25 0x01#8)) = 0xCE#8 ∧
    hdrChecksum (rangeHeader [0x80#8]) = 0x67#8 ∧
    hdrChecksum (rangeHeader (List.replicate 24 0x00#8 ++ [0xFF#8])) = 0xE8#8 ∧
    hdrChecksum (rangeHeader [0x01#8]) = 0xE6#8 := by decide
/-- V14: 0x00 to 0x18 in order. -/
theorem test_checksum_ascending :
    hdrChecksum (rangeHeader ((List.range 25).map (BitVec.ofNat 8))) = 0xBB#8 := by decide
/-- V20: bytes outside the range do not matter; V54: the stored byte 0xBB matches. -/
theorem test_checksum_ok_header_a :
    let s := State.reset.withLoadedHeader ((rangeHeader headerARange).setIfInBounds 0x4D 0xBB#8)
    (s.dataPorts.map fun d => (d.computedChecksum, d.headerChecksum, d.checksumOk)) =
      some (0xBB#8, 0xBB#8, true) := by decide
theorem test_checksum_mismatch_header_a :
    let s := State.reset.withLoadedHeader ((rangeHeader headerARange).setIfInBounds 0x4D 0x12#8)
    (s.dataPorts.map fun d => (d.computedChecksum, d.headerChecksum, d.checksumOk)) =
      some (0xBB#8, 0x12#8, false) := by decide

/-! The ROM size decoder: V40 to V53 -/

theorem test_romsize0 : sampled 0x00#8 = some ⟨32768#32, true⟩ := by decide
theorem test_romsize1 : sampled 0x01#8 = some ⟨65536#32, true⟩ := by decide
theorem test_romsize2 : sampled 0x02#8 = some ⟨131072#32, true⟩ := by decide
theorem test_romsize3 : sampled 0x03#8 = some ⟨262144#32, true⟩ := by decide
theorem test_romsize4 : sampled 0x04#8 = some ⟨524288#32, true⟩ := by decide
theorem test_romsize5 : sampled 0x05#8 = some ⟨1048576#32, true⟩ := by decide
theorem test_romsize6 : sampled 0x06#8 = some ⟨2097152#32, true⟩ := by decide
theorem test_romsize7 : sampled 0x07#8 = some ⟨4194304#32, true⟩ := by decide
theorem test_romsize8 : sampled 0x08#8 = some ⟨8388608#32, true⟩ := by decide
theorem test_romsize_fallback0 : sampled 0x09#8 = some ⟨32768#32, false⟩ := by decide
theorem test_romsize_fallback1 : sampled 0x0A#8 = some ⟨32768#32, false⟩ := by decide
theorem test_romsize_fallback2 : sampled 0x0F#8 = some ⟨32768#32, false⟩ := by decide
theorem test_romsize_fallback3 : sampled 0x10#8 = some ⟨32768#32, false⟩ := by decide
theorem test_romsize_fallback4 : sampled 0x3F#8 = some ⟨32768#32, false⟩ := by decide
theorem test_romsize_fallback5 : sampled 0x52#8 = some ⟨32768#32, false⟩ := by decide
theorem test_romsize_fallback6 : sampled 0xFF#8 = some ⟨32768#32, false⟩ := by decide

/-! The ports: V54 and V55 -/

theorem test_ports_header_a :
    let s := State.reset.withLoadedHeader (rangeHeader headerARange)
    (s.dataPorts.map fun d => (d.title[1], d.newLicenseeCode[0], d.destinationCode,
      d.oldLicenseeCode)) = some (0x55#8, 0x30#8, 0x01#8, 0x33#8) ∧
    s.statusPorts = ⟨3#3, 0x150#9, 0#2, true, false, false⟩ := by decide
theorem test_ports_after_reset :
    State.reset.statusPorts = ⟨0#3, 0#9, 0#2, false, false, false⟩ ∧
    State.reset.dataPorts = none := by decide

/-! Witnesses: for each obligation with hypotheses, a state and operands that meet them -/

theorem witness_DecodeOfEncode :
    (Instr.push 0xCE#8).wellFormed = true ∧ (Instr.romsizeFallback5 0x12#6).wellFormed = true := by
  decide
theorem witness_EncodeOfDecode : decode (.cmd 0x2CE#11) = .ok (.push 0xCE#8) ∧
    decode (.cmd 0x155#11) = .ok .start := by decide
/-- The first and the last reserved word; the last word before them steps. -/
theorem witness_StepRefusesExactlyReservedCommands :
    (State.reset.present [.edge false 0x500#11]).presented = .edge false 0x500#11 ∧
    5 ≤ (cmdField 0x500#11).toNat ∧ 5 ≤ (cmdField 0x7FF#11).toNat ∧
    control (command 0x4FF#11 State.reset) = some (.idle, 0, .none, 0#8) := by decide
theorem witness_StepRefusesExactlyReservedCommands_refused :
    step (State.reset.present [.edge false 0x500#11]) = .refused (.reservedCommand 0x500#11) := rfl
theorem witness_StepRunsDecodedInstruction :
    (State.reset.present [.edge false 0x2CE#11]).presented = .edge false 0x2CE#11 ∧
    decode (.cmd 0x2CE#11) = .ok (.push 0xCE#8) ∧ (Instr.push 0xCE#8).wellFormed = true ∧
    (State.reset.present [.sampleRomSize]).presented = .sampleRomSize ∧
    decode (.rsc (headerByte State.reset.hdr 0x48)) = .ok .romsize0 ∧
    Instr.romsize0.wellFormed = true ∧
    (State.reset.present [.sampleRomSize]).inputs = .sampleRomSize :: [] := by decide
theorem witness_ResetStepWinsOverTheCommand :
    (State.reset.present [.edge true 0x7FF#11]).presented = .edge true 0x7FF#11 := rfl
/-- Both ends of SKIP, both ends of CAPTURE, and the three other phases. -/
theorem witness_PushDropsCapturesOrIgnores :
    ((unitAt .skip 0 .none 0#8).phase = .skip ∧ (unitAt .skip 0 .none 0#8).ofs.val < 0x100) ∧
    ((unitAt .skip 0xFF .none 0#8).ofs.val < 0x100) ∧
    ((unitAt .capture 0x100 .none 0#8).phase = .capture ∧
      0x100 ≤ (unitAt .capture 0x100 .none 0#8).ofs.val) ∧
    ((unitAt .capture 0x14F .none 0#8).ofs.val < 0x150) ∧
    ((unitAt .idle 0 .none 0#8).phase = .idle) ∧ ((unitAt .done 0x150 .none 0#8).phase = .done) ∧
    ((unitAt .error 0 .seek 0#8).phase = .error) := by decide
theorem witness_PushStopsOutsideThePhaseRange :
    0x100 ≤ (unitAt .skip 0x100 .none 0#8).ofs.val ∧ (unitAt .skip 0x100 .none 0#8).phase = .skip ∧
    (unitAt .capture 0xFF .none 0#8).ofs.val < 0x100 ∧
    (unitAt .capture 0x150 .none 0#8).ofs.val = 0x150 ∧
    (unitAt .capture 0x150 .none 0#8).phase = .capture := by decide
theorem witness_EndRaisesSeekOnAnUnfinishedLoad :
    ((unitAt .skip 0 .none 0#8).phase = .skip ∨ (unitAt .skip 0 .none 0#8).phase = .capture) ∧
    ((unitAt .capture 0x14F .none 0#8).phase = .skip ∨
      (unitAt .capture 0x14F .none 0#8).phase = .capture) ∧
    ((unitAt .done 0x150 .none 0#8).phase = .idle ∨ (unitAt .done 0x150 .none 0#8).phase = .done ∨
      (unitAt .done 0x150 .none 0#8).phase = .error) := by decide
theorem witness_AbortRaisesStreamReadOnAnUnfinishedLoad :
    ((unitAt .skip 0xFF .none 0#8).phase = .skip ∨ (unitAt .skip 0xFF .none 0#8).phase = .capture) ∧
    ((unitAt .error 0 .seek 0#8).phase = .idle ∨ (unitAt .error 0 .seek 0#8).phase = .done ∨
      (unitAt .error 0 .seek 0#8).phase = .error) := by decide
theorem witness_RaiseWritesPhaseAndCauseOnly : Cause.seek ≠ .none ∧ Cause.streamRead ≠ .none := by
  decide
theorem witness_RecognisedRowsAnswerTheirSize :
    (State.reset.withLoadedHeader (rangeHeader [])).phase = .done := rfl
theorem witness_FallbackRowsAnswerTheFallback : (unitAt .done 0x150 .none 0#8).phase = .done := rfl
theorem witness_RomSizeRowsAnswerNothingOutsideDone :
    encode .romsize3 = .rsc 0x03#8 ∧ encode (.romsizeFallback6 0x7F#7) = .rsc 0xFF#8 ∧
    (unitAt .capture 0x14F .none 0#8).phase ≠ .done := by decide
theorem witness_SamplingAnswersThePorts :
    (State.reset.present [.sampleRomSize]).presented = .sampleRomSize := rfl
theorem witness_RomSizeIsThirtyTwoKiBShiftedOrFallback :
    (unitAt .done 0x150 .none 0#8).dataPorts = some (dataPortsOf (unitAt .done 0x150 .none 0#8)) := by
  decide
theorem witness_RomSizePorts : (unitAt .done 0x150 .none 0#8).phase = .done ∧
    (unitAt .error 0 .seek 0#8).phase ≠ .done := by decide
theorem witness_ChecksumClosedForm :
    (∀ b ∈ checksumBytes (rangeHeader []), b = 0x00#8) ∧
    (∀ b ∈ checksumBytes (rangeHeader (List.replicate 25 0xFF#8)), b = 0xFF#8) ∧
    (checksumBytes (rangeHeader [1#8])).Perm (checksumBytes (rangeHeader [0#8, 1#8])) := by decide
theorem witness_ChecksumReadsOnlyItsRange :
    ∀ i, 0x34 ≤ i → i ≤ 0x4C →
      headerByte (rangeHeader [1#8]) i =
        headerByte ((rangeHeader [1#8]).setIfInBounds 0x4D 0xFF#8) i := by
  intro i _ h
  rw [headerByte_set _ _ _ (by omega), if_neg (by omega)]
theorem witness_ChecksumPortsInDone :
    (State.reset.withLoadedHeader (rangeHeader headerARange)).Inv ∧
    (State.reset.withLoadedHeader (rangeHeader headerARange)).phase = .done :=
  ⟨⟨rfl, rfl, rfl⟩, rfl⟩
theorem witness_FieldPortsTileTheHeader : (unitAt .done 0x150 .none 0#8).phase = .done ∧
    (unitAt .skip 0 .none 0#8).phase ≠ .done := by decide
theorem witness_FieldLayoutIsTheRunningSum :
    headerFields = [.entryPoint, .bootLogo] ++ .title :: headerFields.drop 3 ∧
    (unitAt .done 0x150 .none 0#8).dataPorts = some (dataPortsOf (unitAt .done 0x150 .none 0#8)) := by
  decide
theorem witness_OutputsAreAFunctionOfTheUnit :
    sameUnit State.reset (State.reset.present [.sampleRomSize]) ∧
    State.reset ≠ State.reset.present [.sampleRomSize] :=
  ⟨⟨rfl, rfl, rfl, rfl, rfl⟩, by decide⟩
/-- The last PUSH of a load of zeros, at OFS 0x14F: ACC is 0xE7 there (V34). -/
def lastPush : State := (unitAt .capture 0x14F .none 0xE7#8).present [.edge false 0x200#11]
theorem witness_StepKeepsInv_inv : lastPush.Inv :=
  ⟨by decide, by decide, rfl, by decide +kernel⟩
theorem witness_StepKeepsInv_step : ∃ t, step lastPush = .next t ∧ t.phase = .done := ⟨_, rfl, rfl⟩
theorem witness_NoStepFaultsUnderInv : lastPush.Inv := witness_StepKeepsInv_inv
theorem witness_EveryInputIsAcceptedInEveryPhase :
    lastPush.Inv ∧ lastPush.presented.wellFormed = true :=
  ⟨witness_StepKeepsInv_inv, by decide⟩
/-- NOP, START, PUSH in SKIP at 0xFF, and the ignored PUSH, END and ABORT in IDLE, DONE and ERROR. -/
theorem witness_PhaseTransitionTable_commands :
    control (command 0x0AB#11 (unitAt .skip 0xFF .none 0#8)) = some (.skip, 0xFF, .none, 0#8) ∧
    control (command 0x100#11 (unitAt .done 0x150 .none 0#8)) = some (.skip, 0, .none, 0#8) ∧
    control (command 0x200#11 (unitAt .skip 0xFF .none 0#8)) =
      some (.capture, 0x100, .none, 0#8) ∧
    control (command 0x200#11 (unitAt .idle 0 .none 0#8)) = some (.idle, 0, .none, 0#8) := by decide
theorem witness_PhaseTransitionTable_ignored :
    control (command 0x2AA#11 (unitAt .done 0x150 .none 0#8)) = some (.done, 0x150, .none, 0#8) ∧
    control (command 0x300#11 (unitAt .idle 0 .none 0#8)) = some (.idle, 0, .none, 0#8) ∧
    control (command 0x400#11 (unitAt .done 0x150 .none 0#8)) = some (.done, 0x150, .none, 0#8) ∧
    control (command 0x300#11 (unitAt .error 0x010 .streamRead 0#8)) =
      some (.error, 0x010, .streamRead, 0#8) := by decide
/-- Reset, a sampling, the last PUSH of a load, and END and ABORT in SKIP. -/
theorem witness_PhaseTransitionTable :
    (∃ t, step (State.reset.present [.edge true 0#11]) = .next t) ∧
    (∃ t, step (State.reset.present [.sampleRomSize]) = .next t) ∧
    (∃ t, step lastPush = .next t) ∧
    (∃ t, step ((unitAt .skip 0xFF .none 0#8).present [.edge false 0x300#11]) = .next t) ∧
    (∃ t, step ((unitAt .skip 0xFF .none 0#8).present [.edge false 0x400#11]) = .next t) :=
  ⟨⟨_, rfl⟩, ⟨_, rfl⟩, ⟨_, rfl⟩, ⟨_, rfl⟩, ⟨_, rfl⟩⟩
theorem witness_OnlyPushInCaptureWritesHeader : ∃ t, step lastPush = .next t := ⟨_, rfl⟩
theorem witness_OnlyRestartAndPushChangeOffset : ∃ t, step lastPush = .next t := ⟨_, rfl⟩
theorem witness_OnlyRestartAndSummedPushWriteAccumulator : ∃ t, step lastPush = .next t := ⟨_, rfl⟩
theorem witness_OnlyRestartEndAndAbortWriteCause : ∃ t, step lastPush = .next t := ⟨_, rfl⟩
theorem witness_FinishedRunChangesOnlyByRestart :
    (unitAt .done 0x150 .none 0#8).runOver ∧ (unitAt .error 0 .seek 0#8).runOver ∧
    (∀ p ∈ [inputOf (.push 1#8), inputOf .endStream, inputOf .abort, .sampleRomSize],
      p.wellFormed = true ∧ restarts p = false) :=
  ⟨.inl rfl, .inr rfl, by decide⟩
theorem witness_RunningLoadWaitsForEver :
    (unitAt .capture 0x14F .none 0#8).busy = true ∧
    (∀ p ∈ [inputOf .nop, .edge false 0x0AB#11], isNopInput p = true) := by decide
theorem witness_HeaderNotValidBeforeAllBytes :
    restarts (inputOf .start) = true ∧ restarts resetInput = true ∧
    [inputOf (.push 0#8)].length < 336 ∧
    ∃ t, drive (inputOf .start :: [inputOf (.push 0#8)]) State.reset = .next t :=
  ⟨by decide, by decide, by decide, _, rfl⟩
theorem witness_CaptureIsExact :
    pushedBytes ((List.replicate 0x150 0xFF#8).map fun b => inputOf (.push b)) =
      some (List.replicate 0x150 0xFF#8) ∧ (List.replicate 0x150 0xFF#8 : List Byte).length = 0x150 :=
  ⟨pushedBytes_pushes _, List.length_replicate⟩
/-- Below and at the bound: 0x14F and 0x150 bytes, and none. -/
theorem witness_LoadOutcomeByNumberOfBytes :
    pushedBytes [] = some [] ∧
    pushedBytes ((List.replicate 0x14F 0#8).map fun b => inputOf (.push b)) =
      some (List.replicate 0x14F 0#8) ∧
    pushedBytes ((List.replicate 0x150 0#8).map fun b => inputOf (.push b)) =
      some (List.replicate 0x150 0#8) :=
  ⟨rfl, pushedBytes_pushes _, pushedBytes_pushes _⟩
theorem witness_LoadSucceedsIffImageHoldsHeader :
    0x150 ≤ (List.replicate 0x150 0#8 : List Byte).length ∧
    (List.replicate 0x14F 0#8 : List Byte).length < 0x150 := by
  rw [List.length_replicate, List.length_replicate]
  decide
theorem witness_EarlierStateCannotReachAnOutput :
    restarts (inputOf .start) = true ∧ restarts resetInput = true ∧
    ∃ t, drive [inputOf .start, inputOf (.push 0#8)] (unitAt .done 0x150 .none 0#8) = .next t :=
  ⟨by decide, by decide, _, rfl⟩
theorem witness_UnitsDoNotInteract :
    ∃ vs, stepUnit [lastPush, lastPush] 1 = some (.next vs) := ⟨_, rfl⟩
/-- The unit at place 1 steps beside one whose own step is refused. -/
theorem witness_UnitsDoNotInteract_unblocked :
    [State.reset.present [.edge false 0x500#11], lastPush][1]? = some lastPush ∧
    ∃ t, step lastPush = .next t := ⟨rfl, _, rfl⟩

end Sys2Proof.Tests
end

/-! PROOFS. Which phases the flags and the data ports stand for (rules R16, R19). -/

namespace Sys2Proof.Machine

@[simp] theorem headerValid_iff (s : State) : s.headerValid = true ↔ s.phase = .done := by
  simp [State.headerValid]

@[simp] theorem errorFlag_iff (s : State) : s.errorFlag = true ↔ s.phase = .error := by
  simp [State.errorFlag]

@[simp] theorem busy_iff (s : State) : s.busy = true ↔ s.phase = .skip ∨ s.phase = .capture := by
  simp [State.busy]

theorem dataPorts_isSome_iff (s : State) : s.dataPorts.isSome = true ↔ s.phase = .done := by
  simp [State.dataPorts]

theorem fieldPort_isSome_iff (f : HeaderField) (s : State) :
    (s.fieldPort f).isSome = true ↔ s.phase = .done := by
  simp [State.fieldPort]

theorem dataPorts_of_done {s : State} (h : s.phase = .done) : s.dataPorts = some (dataPortsOf s) :=
  if_pos ((headerValid_iff s).mpr h)

theorem dataPorts_of_ne_done {s : State} (h : s.phase ≠ .done) : s.dataPorts = none :=
  if_neg (mt (headerValid_iff s).mp h)

/-- The status ports are a function of PHASE, OFS and CAUSE. -/
theorem statusPorts_congr {s t : State} (phase : s.phase = t.phase) (ofs : s.ofs = t.ofs)
    (cause : s.cause = t.cause) : s.statusPorts = t.statusPorts := by
  simp only [State.statusPorts, State.headerValid, State.errorFlag, State.busy, phase, ofs, cause]

/-- What the data ports show in DONE is a function of HDR and ACC. -/
theorem dataPortsOf_congr {s t : State} (hdr : s.hdr = t.hdr) (acc : s.acc = t.acc) :
    dataPortsOf s = dataPortsOf t := by
  simp only [dataPortsOf, State.checksumMatches, hdr, acc]

/-- Settles O28: each flag by its phase, and in each phase exactly one of the four is 1. -/
theorem flagsByPhase : Obligations.FlagsByPhase := by
  intro s
  refine ⟨headerValid_iff s, errorFlag_iff s, busy_iff s, ?_⟩
  cases h : s.phase <;> simp only [State.headerValid, State.errorFlag, State.busy, h] <;> rfl

/-- Settles O29: both the data group and a field's port are guarded by `header_valid`. -/
theorem dataPortsHaveValuesOnlyInDone : Obligations.DataPortsHaveValuesOnlyInDone :=
  fun s => ⟨dataPorts_isSome_iff s, fun f => fieldPort_isSome_iff f s⟩

/-- Settles O19: a row of the decoder runs as the sampling of its code, which outside DONE answers
no value. -/
theorem romSizeRowsAnswerNothingOutsideDone : Obligations.RomSizeRowsAnswerNothingOutsideDone := by
  intro i code s row notDone
  rw [exec_rsc row, answerRomSize_eq, if_neg notDone]
  rfl

end Sys2Proof.Machine

/-! PROOFS. Where a PUSH counts up, and where it faults (rule R53; log entry 4). -/

namespace Sys2Proof.Machine

theorem dropByte_ofs_val {s : State} (r : s.ofs.val < 256) :
    s.dropByte.ofs.val = s.ofs.val + 1 := by
  rw [dropByte_ofs, nextOffset_val]
  omega

theorem captureByte_ofs_val {s : State} (b : Byte) (r : s.ofs.val < 336) :
    (s.captureByte b).ofs.val = s.ofs.val + 1 := by
  rw [captureByte_ofs, nextOffset_val]
  omega

theorem execPush_skip_fault {s : State} (b : Byte) (h : s.phase = .skip) (r : 256 ≤ s.ofs.val) :
    execPush b s = .fault (.offsetOutsidePhase .skip s.ofs.val) := by
  have outside : ¬ inSkipRange s.ofs = true := by simpa using r
  simp only [execPush, h, if_neg outside]

theorem execPush_capture_fault {s : State} (b : Byte) (h : s.phase = .capture)
    (r : s.ofs.val < 256 ∨ 336 ≤ s.ofs.val) :
    execPush b s = .fault (.offsetOutsidePhase .capture s.ofs.val) := by
  have outside : ¬ inCaptureRange s.ofs = true := by rw [inCaptureRange_iff]; omega
  simp only [execPush, h, if_neg outside]

/-- Settles O13: the two offset tests of PUSH fail there. -/
theorem pushStopsOutsideThePhaseRange : Obligations.PushStopsOutsideThePhaseRange :=
  fun _ b => ⟨execPush_skip_fault b,
    fun h r => execPush_capture_fault b h (r.imp_right fun last => by omega)⟩

end Sys2Proof.Machine

/-! PROOFS. The table of rule R18 phase by phase, and each operation on the state keeping it. -/

namespace Sys2Proof.Machine

theorem inv_iff_of_idle {s : State} (h : s.phase = .idle) :
    s.Inv ↔ s.ofs.val = 0 ∧ s.cause = .none ∧ s.acc = 0#8 := by
  simp [State.Inv, h]

theorem inv_iff_of_skip {s : State} (h : s.phase = .skip) :
    s.Inv ↔ s.ofs.val < 256 ∧ s.cause = .none ∧ s.acc = 0#8 := by
  simp [State.Inv, h]

theorem inv_iff_of_capture {s : State} (h : s.phase = .capture) :
    s.Inv ↔ 256 ≤ s.ofs.val ∧ s.ofs.val < 336 ∧ s.cause = .none ∧
      s.acc = partialChecksum s.hdr (s.ofs.val - 256) := by
  simp [State.Inv, h]

theorem inv_iff_of_done {s : State} (h : s.phase = .done) :
    s.Inv ↔ s.ofs.val = 336 ∧ s.cause = .none ∧ s.acc = hdrChecksum s.hdr := by
  simp [State.Inv, h]

theorem inv_iff_of_error {s : State} (h : s.phase = .error) :
    s.Inv ↔ s.ofs.val < 336 ∧ s.cause ≠ .none := by
  simp [State.Inv, h]

/-- The table speaks of the five elements of the unit only. -/
theorem inv_of_sameUnit {s t : State} (same : sameUnit s t) (inv : s.Inv) : t.Inv := by
  obtain ⟨hdr, ofs, phase, cause, acc⟩ := same
  simpa only [State.Inv, hdr, ofs, phase, cause, acc] using inv

theorem sameUnit_consume (s : State) : sameUnit s s.consume := by simp [sameUnit]

theorem resetWith_inv (h : HeaderFile) : (State.resetWith h).Inv :=
  (inv_iff_of_idle rfl).mpr ⟨rfl, rfl, rfl⟩

theorem resetStep_inv (s : State) : s.resetStep.Inv :=
  (inv_iff_of_idle rfl).mpr ⟨rfl, rfl, rfl⟩

theorem beginLoad_inv (s : State) : s.beginLoad.Inv :=
  (inv_iff_of_skip rfl).mpr ⟨Nat.zero_lt_succ 255, rfl, rfl⟩

/-- A dropped byte counts up within SKIP, or enters CAPTURE with nothing summed yet. -/
theorem dropByte_inv {s : State} (inv : s.Inv) (h : s.phase = .skip) : s.dropByte.Inv := by
  obtain ⟨below, cause, acc⟩ := (inv_iff_of_skip h).mp inv
  have ofs := dropByte_ofs_val below
  by_cases last : s.ofs.val + 1 = 256
  · have phase : s.dropByte.phase = .capture := if_pos last
    rw [inv_iff_of_capture phase, partialChecksum_before _ (by omega)]
    exact ⟨by omega, by omega, cause, acc⟩
  · have phase : s.dropByte.phase = .skip := (if_neg last).trans h
    exact (inv_iff_of_skip phase).mpr ⟨by omega, cause, acc⟩

/-- A captured byte takes ACC from one partial sum to the next. -/
theorem captureByte_acc_partialChecksum {s : State} (b : Byte) (r : 256 ≤ s.ofs.val)
    (r' : s.ofs.val < 336) (acc : s.acc = partialChecksum s.hdr (s.ofs.val - 256)) :
    (s.captureByte b).acc = partialChecksum (s.captureByte b).hdr (s.ofs.val - 256 + 1) := by
  rw [captureByte_hdr, headerIndex_eq, partialChecksum_set _ (by omega),
    show 256 + (s.ofs.val - 256) = s.ofs.val by omega, ← acc, captureByte_acc]

/-- A captured byte counts up within CAPTURE, or enters DONE with all 80 bytes summed. -/
theorem captureByte_inv {s : State} (b : Byte) (inv : s.Inv) (h : s.phase = .capture) :
    (s.captureByte b).Inv := by
  obtain ⟨low, high, cause, acc⟩ := (inv_iff_of_capture h).mp inv
  have ofs := captureByte_ofs_val b high
  have summed := captureByte_acc_partialChecksum b low high acc
  by_cases last : s.ofs.val + 1 = 336
  · have phase : (s.captureByte b).phase = .done := if_pos last
    rw [show s.ofs.val - 256 + 1 = 80 by omega, partialChecksum_all] at summed
    exact (inv_iff_of_done phase).mpr ⟨by omega, cause, summed⟩
  · have phase : (s.captureByte b).phase = .capture := (if_neg last).trans h
    rw [inv_iff_of_capture phase, ofs, Nat.sub_add_comm low]
    exact ⟨by omega, by omega, cause, summed⟩

/-- An unfinished load has not counted to 0x150. -/
theorem ofs_lt_of_inv_running {s : State} (inv : s.Inv)
    (running : s.phase = .skip ∨ s.phase = .capture) : s.ofs.val < 336 := by
  rcases running with h | h
  · obtain ⟨below, -⟩ := (inv_iff_of_skip h).mp inv
    omega
  · obtain ⟨-, below, -⟩ := (inv_iff_of_capture h).mp inv
    exact below

/-- A cause raised on an unfinished load keeps an offset below 0x150. -/
theorem raise_inv {s : State} {c : Cause} (inv : s.Inv)
    (running : s.phase = .skip ∨ s.phase = .capture) (real : c ≠ .none) : (s.raise c).Inv := by
  have below : s.ofs.val < 336 := ofs_lt_of_inv_running inv running
  exact (inv_iff_of_error rfl).mpr ⟨below, real⟩

/-- Settles O33: both states are `State.resetWith` of some header contents. -/
theorem invAtReset : Obligations.InvAtReset :=
  ⟨resetWith_inv _, resetWith_inv⟩

/-- Settles O9: the fields are those of `State.resetWith`, and IDLE hides the data ports. -/
theorem resetLeavesTheStatedValues : Obligations.ResetLeavesTheStatedValues :=
  fun _ => ⟨rfl, rfl, rfl, rfl, rfl, rfl, rfl, dataPorts_of_ne_done (by simp [State.resetWith])⟩

end Sys2Proof.Machine

/-! PROOFS. What a step that answers a next state does to the unit: one of six effects, from which
the rules on who writes a register follow case by case (rules R11, R12, R15, R18). -/

namespace Sys2Proof.Machine

/-- Everything an END can do. -/
theorem execEnd_cases {s t : State} (e : execEnd s = .next t) :
    ((s.phase = .skip ∨ s.phase = .capture) ∧ t = s.raise .seek) ∨
    (s.phase ≠ .skip ∧ s.phase ≠ .capture ∧ t = s) := by
  unfold execEnd at e
  split at e <;> cases e <;> simp [*]

/-- Everything an ABORT can do. -/
theorem execAbort_cases {s t : State} (e : execAbort s = .next t) :
    ((s.phase = .skip ∨ s.phase = .capture) ∧ t = s.raise .streamRead) ∨
    (s.phase ≠ .skip ∧ s.phase ≠ .capture ∧ t = s) := by
  unfold execAbort at e
  split at e <;> cases e <;> simp [*]

/-- The effects a step from `s` to `t` can have on the unit, with what the host presented and the
phase that the effect needs. -/
inductive StepEffect (s t : State) : Prop where
  | reset (input : restarts s.presented = true) (next : t = s.consume.resetStep)
  | start (input : restarts s.presented = true) (next : t = s.consume.beginLoad)
  | drop (w : CommandWord) (input : s.presented = .edge false w) (cmd : cmdField w = 2#3)
      (phase : s.phase = .skip) (range : s.ofs.val < 256) (next : t = s.consume.dropByte)
  | capture (w : CommandWord) (input : s.presented = .edge false w) (cmd : cmdField w = 2#3)
      (phase : s.phase = .capture) (low : 256 ≤ s.ofs.val) (high : s.ofs.val < 336)
      (next : t = s.consume.captureByte (dataField w))
  | raise (w : CommandWord) (c : Cause) (input : s.presented = .edge false w)
      (cmd : (cmdField w = 3#3 ∧ c = .seek) ∨ (cmdField w = 4#3 ∧ c = .streamRead))
      (phase : s.phase = .skip ∨ s.phase = .capture) (next : t = s.consume.raise c)
  | keep (input : restarts s.presented = false) (same : sameUnit s t)

theorem restarts_eq_false {s : State} {w : CommandWord} (input : s.presented = .edge false w)
    (cmd : cmdField w ≠ 1#3) : restarts s.presented = false := by
  simp [restarts, input, cmd]

/-- Everything a step that answers a next state does to the unit. -/
theorem step_effect {s t : State} (e : step s = .next t) : StepEffect s t := by
  rcases step_cases e with ⟨w, input, rfl⟩ | ⟨w, input, cmd, rfl⟩ | ⟨w, input, cmd, rfl⟩ |
    ⟨w, input, cmd, push⟩ | ⟨w, input, cmd, ended⟩ | ⟨w, input, cmd, aborted⟩ | ⟨input, r, rfl⟩
  · exact .reset (by simp [restarts, input]) rfl
  · exact .keep (restarts_eq_false input (by simp [cmd])) (sameUnit_consume s)
  · exact .start (by simp [restarts, input, cmd]) rfl
  · rcases execPush_cases push with ⟨h, r, rfl⟩ | ⟨h, r, r', rfl⟩ | ⟨-, -, rfl⟩
    · exact .drop w input cmd (by simpa using h) (by simpa using r) rfl
    · exact .capture w input cmd (by simpa using h) (by simpa using r) (by simpa using r') rfl
    · exact .keep (restarts_eq_false input (by simp [cmd])) (sameUnit_consume s)
  · rcases execEnd_cases ended with ⟨h, rfl⟩ | ⟨-, -, rfl⟩
    · exact .raise w .seek input (.inl ⟨cmd, rfl⟩) (by simpa using h) rfl
    · exact .keep (restarts_eq_false input (by simp [cmd])) (sameUnit_consume s)
  · rcases execAbort_cases aborted with ⟨h, rfl⟩ | ⟨-, -, rfl⟩
    · exact .raise w .streamRead input (.inr ⟨cmd, rfl⟩) (by simpa using h) rfl
    · exact .keep (restarts_eq_false input (by simp [cmd])) (sameUnit_consume s)
  · exact .keep (by simp [restarts, input]) (sameUnit_consume s)

/-- Each of the six effects keeps the table of rule R18. -/
theorem step_keeps_inv {s t : State} (inv : s.Inv) (e : step s = .next t) : t.Inv := by
  have inv' : s.consume.Inv := inv_of_sameUnit (sameUnit_consume s) inv
  cases step_effect e with
  | reset _ next => exact next ▸ resetStep_inv _
  | start _ next => exact next ▸ beginLoad_inv _
  | drop w _ _ phase _ next => exact next ▸ dropByte_inv inv' (by simpa using phase)
  | capture w _ _ phase _ _ next =>
    exact next ▸ captureByte_inv (dataField w) inv' (by simpa using phase)
  | raise w c _ cmd phase next =>
    have real : c ≠ .none := by rcases cmd with ⟨-, rfl⟩ | ⟨-, rfl⟩ <;> simp
    exact next ▸ raise_inv inv' (by simpa using phase) real
  | keep _ same => exact inv_of_sameUnit same inv

/-- Settles O34, by the six effects of a step. -/
theorem stepKeepsInv : Obligations.StepKeepsInv :=
  fun _ _ => step_keeps_inv

/-- Settles O38: of the six effects only `capture` writes HDR. -/
theorem onlyPushInCaptureWritesHeader : Obligations.OnlyPushInCaptureWritesHeader := by
  intro s t e
  cases step_effect e with
  | reset _ next => exact .inl (by simp [next])
  | start _ next => exact .inl (by simp [next])
  | drop w _ _ _ _ next => exact .inl (by simp [next])
  | capture w input cmd phase _ _ next =>
    refine .inr ⟨w, input, cmd, phase, fun i hi => ?_⟩
    simp [next, headerByte_set _ _ _ hi, eq_comm]
  | raise w c _ _ _ next => exact .inl (by simp [next])
  | keep _ same =>
    obtain ⟨hdr, -⟩ := same
    exact .inl hdr.symm

/-- Settles O39: the two restarts write 0, the two moves of a byte count up, and the others keep
OFS. -/
theorem onlyRestartAndPushChangeOffset : Obligations.OnlyRestartAndPushChangeOffset := by
  intro s t e
  cases step_effect e with
  | reset input next => exact .inr (.inl ⟨input, by simp [next]⟩)
  | start input next => exact .inr (.inl ⟨input, by simp [next]⟩)
  | drop w input cmd phase range next =>
    have counted := dropByte_ofs_val (s := s.consume) (by simpa using range)
    exact .inr (.inr ⟨w, input, cmd, .inl phase, by simpa only [next, consume_ofs] using counted⟩)
  | capture w input cmd phase _ high next =>
    have counted := captureByte_ofs_val (s := s.consume) (dataField w) (by simpa using high)
    exact .inr (.inr ⟨w, input, cmd, .inr phase, by simpa only [next, consume_ofs] using counted⟩)
  | raise w c _ _ _ next => exact .inl (by simp [next])
  | keep _ same =>
    obtain ⟨-, ofs, -⟩ := same
    exact .inl ofs.symm

/-- Settles O40: the two restarts write CK_INIT, a captured byte is summed if its offset is in the
checksum range, and the others keep ACC. -/
theorem onlyRestartAndSummedPushWriteAccumulator :
    Obligations.OnlyRestartAndSummedPushWriteAccumulator := by
  intro s t e
  cases step_effect e with
  | reset input next => exact .inr (.inl ⟨input, by simp [next]⟩)
  | start input next => exact .inr (.inl ⟨input, by simp [next]⟩)
  | drop w _ _ _ _ next => exact .inl (by simp [next])
  | capture w input cmd phase _ _ next =>
    by_cases summed : 308 ≤ s.ofs.val ∧ s.ofs.val ≤ 332
    · exact .inr (.inr ⟨w, input, cmd, phase, summed.1, summed.2, by simp [next, summed]⟩)
    · exact .inl (by simp [next, summed])
  | raise w c _ _ _ next => exact .inl (by simp [next])
  | keep _ same =>
    obtain ⟨-, -, -, -, acc⟩ := same
    exact .inl acc.symm

end Sys2Proof.Machine

/-! PROOFS. Two units given the same inputs after a restart (rules R19, R21, R22): a simulation that
compares the header registers only as far as the load has written them. -/

namespace Sys2Proof.Machine

/-- OFS, PHASE, CAUSE and ACC are the same, and so is every header register below OFS: the ones the
running load has written. -/
structure AgreeUpToOffset (s t : State) : Prop where
  ofs : s.ofs = t.ofs
  phase : s.phase = t.phase
  cause : s.cause = t.cause
  acc : s.acc = t.acc
  hdr : ∀ i, i < s.ofs.val - 256 → headerByte s.hdr i = headerByte t.hdr i

theorem agree_resetStep (s t : State) : AgreeUpToOffset s.resetStep t.resetStep :=
  ⟨rfl, rfl, rfl, rfl, fun _ hi => by simp at hi⟩

theorem agree_beginLoad (s t : State) : AgreeUpToOffset s.beginLoad t.beginLoad :=
  ⟨rfl, rfl, rfl, rfl, fun _ hi => by simp at hi⟩

namespace AgreeUpToOffset

theorem raise {s t : State} (agree : AgreeUpToOffset s t) (c : Cause) :
    AgreeUpToOffset (s.raise c) (t.raise c) :=
  ⟨agree.ofs, rfl, rfl, agree.acc, agree.hdr⟩

theorem recordSample {s t : State} (agree : AgreeUpToOffset s t) (r r' : Option RomSizeSample) :
    AgreeUpToOffset (s.recordSample r) (t.recordSample r') :=
  ⟨agree.ofs, agree.phase, agree.cause, agree.acc, agree.hdr⟩

theorem present {s t : State} (agree : AgreeUpToOffset s t) (ps qs : List PortInput) :
    AgreeUpToOffset (s.present ps) (t.present qs) :=
  ⟨agree.ofs, agree.phase, agree.cause, agree.acc, agree.hdr⟩

theorem dropByte {s t : State} (agree : AgreeUpToOffset s t) (r : s.ofs.val < 256) :
    AgreeUpToOffset s.dropByte t.dropByte where
  ofs := by simp [agree.ofs]
  phase := by simp [agree.ofs, agree.phase]
  cause := agree.cause
  acc := agree.acc
  hdr i hi := by rw [dropByte_ofs_val r] at hi; omega

theorem captureByte {s t : State} (agree : AgreeUpToOffset s t) (b : Byte) (r : 256 ≤ s.ofs.val)
    (r' : s.ofs.val < 336) : AgreeUpToOffset (s.captureByte b) (t.captureByte b) where
  ofs := by simp [agree.ofs]
  phase := by simp [agree.ofs, agree.phase]
  cause := agree.cause
  acc := by simp [agree.ofs, agree.acc]
  hdr i hi := by
    rw [captureByte_ofs_val b r', Nat.sub_add_comm r] at hi
    have inside : i < 80 := by omega
    rw [captureByte_hdr, captureByte_hdr, headerByte_set _ _ _ inside, headerByte_set _ _ _ inside,
      headerIndex_eq, headerIndex_eq, ← agree.ofs]
    split
    · rfl
    · exact agree.hdr i (by omega)

/-- An instruction that answers from one unit answers from the other, and they still agree. -/
theorem exec {s t s' : State} {i : Instr} (agree : AgreeUpToOffset s t)
    (e : Machine.exec i s = .next s') :
    ∃ t', Machine.exec i t = .next t' ∧ AgreeUpToOffset s' t' := by
  cases i
  case nop => cases e; exact ⟨_, rfl, agree⟩
  case start => cases e; exact ⟨_, rfl, agree_beginLoad s t⟩
  case push b =>
    rcases execPush_cases e with ⟨h, r, rfl⟩ | ⟨h, r, r', rfl⟩ | ⟨h, h', rfl⟩
    · exact ⟨_, execPush_skip b (agree.phase ▸ h) (agree.ofs ▸ r), agree.dropByte r⟩
    · exact ⟨_, execPush_capture b (agree.phase ▸ h) (agree.ofs ▸ r) (agree.ofs ▸ r'),
        agree.captureByte b r r'⟩
    · exact ⟨_, execPush_ignored b (agree.phase ▸ h) (agree.phase ▸ h'), agree⟩
  case endStream =>
    rcases execEnd_cases e with ⟨h, rfl⟩ | ⟨h, h', rfl⟩
    · exact ⟨_, execEnd_running (agree.phase ▸ h), agree.raise _⟩
    · exact ⟨_, execEnd_ignored (agree.phase ▸ h) (agree.phase ▸ h'), agree⟩
  case abort =>
    rcases execAbort_cases e with ⟨h, rfl⟩ | ⟨h, h', rfl⟩
    · exact ⟨_, execAbort_running (agree.phase ▸ h), agree.raise _⟩
    · exact ⟨_, execAbort_ignored (agree.phase ▸ h) (agree.phase ▸ h'), agree⟩
  all_goals cases e; exact ⟨_, rfl, agree.recordSample _ _⟩

/-- A step on one input: a sampling may read different size codes, which only the host notes. -/
theorem step {s t s' : State} {p : PortInput} {ps : List PortInput} (agree : AgreeUpToOffset s t)
    (e : Machine.step (s.present (p :: ps)) = .next s') :
    ∃ t', Machine.step (t.present (p :: ps)) = .next t' ∧ AgreeUpToOffset s' t' := by
  simp only [Machine.step, State.fetch, presented_present, consume_present, present_hdr] at e ⊢
  cases p with
  | sampleRomSize =>
    obtain ⟨r, hr⟩ := exec_romSizeCode (headerByte s.hdr 0x48) (s.present ps)
    obtain ⟨r', hr'⟩ := exec_romSizeCode (headerByte t.hdr 0x48) (t.present ps)
    cases hr.symm.trans e
    exact ⟨_, hr', (agree.present ps ps).recordSample r r'⟩
  | edge rst w =>
    cases rst with
    | true => cases e; exact ⟨_, rfl, agree_resetStep _ _⟩
    | false =>
      cases hd : decode (.cmd w) with
      | error d => simp [hd] at e
      | ok i =>
        simp only [hd] at e ⊢
        exact (agree.present ps ps).exec e

/-- Driving the same inputs, by induction on them. -/
theorem drive {ps : List PortInput} : ∀ {s t s' : State}, AgreeUpToOffset s t →
    Machine.drive ps s = .next s' →
    ∃ t', Machine.drive ps t = .next t' ∧ AgreeUpToOffset s' t' := by
  induction ps with
  | nil => intro s t s' agree e; cases e; exact ⟨_, drive_nil t, agree.present [] []⟩
  | cons p ps ih =>
    intro s t s' agree e
    obtain ⟨u, hu, rest⟩ := drive_cons_cases e
    obtain ⟨v, hv, agree'⟩ := agree.step hu
    obtain ⟨t', ht', agree''⟩ := ih agree' rest
    exact ⟨t', (drive_cons hv).trans ht', agree''⟩

/-- In DONE all 80 registers lie below OFS, and in no other phase do the ports show one. -/
theorem sameOutputs {s t : State} (agree : AgreeUpToOffset s t) (inv : s.Inv) :
    Machine.sameOutputs s t := by
  refine ⟨statusPorts_congr agree.phase agree.ofs agree.cause, ?_⟩
  by_cases h : s.phase = .done
  · obtain ⟨ofs, -⟩ := (inv_iff_of_done h).mp inv
    have hdr : s.hdr = t.hdr := headerFile_ext fun i hi => agree.hdr i (by omega)
    rw [dataPorts_of_done h, dataPorts_of_done (agree.phase ▸ h), dataPortsOf_congr hdr agree.acc]
  · rw [dataPorts_of_ne_done h, dataPorts_of_ne_done (agree.phase ▸ h)]

end AgreeUpToOffset

/-- The table of rule R18 holds at the end of every sequence of inputs if it holds at its start. -/
theorem drive_keeps_inv {ps : List PortInput} :
    ∀ {s t : State}, s.Inv → drive ps s = .next t → t.Inv := by
  induction ps with
  | nil => intro s t inv e; cases e; exact inv
  | cons p ps ih =>
    intro s t inv e
    obtain ⟨u, hu, rest⟩ := drive_cons_cases e
    exact ih (step_keeps_inv (s := s.present (p :: ps)) inv hu) rest

/-- A restart answers from every state, by the reset step or by beginning a load. -/
theorem step_restart {p : PortInput} (h : restarts p = true) (ps : List PortInput) :
    (∀ s : State, step (s.present (p :: ps)) = .next (s.present ps).resetStep) ∨
    (∀ s : State, step (s.present (p :: ps)) = .next (s.present ps).beginLoad) := by
  cases p with
  | sampleRomSize => cases h
  | edge rst w =>
    cases rst with
    | true => exact .inl fun s => rfl
    | false =>
      have cmd : cmdField w = 1#3 := by simpa [restarts] using h
      have decoded : decode (.cmd w) = .ok .start := by simp [decode, decodeCommand, cmd]
      refine .inr fun s => ?_
      simp [step, State.fetch, decoded, exec, execStart]

/-- The first step of a restart forgets the state before it but for the header registers. -/
theorem step_restart_agree {p : PortInput} (h : restarts p = true) (ps : List PortInput)
    (s₁ s₂ : State) :
    ∃ u₁ u₂, step (s₁.present (p :: ps)) = .next u₁ ∧ step (s₂.present (p :: ps)) = .next u₂ ∧
      AgreeUpToOffset u₁ u₂ ∧ u₁.Inv := by
  rcases step_restart h ps with answers | answers
  · exact ⟨_, _, answers s₁, answers s₂, agree_resetStep _ _, resetStep_inv _⟩
  · exact ⟨_, _, answers s₁, answers s₂, agree_beginLoad _ _, beginLoad_inv _⟩

/-- Settles O49: after the restart the two units agree on everything but the header registers not
yet written, every further input keeps that, and the ports show no other register. -/
theorem earlierStateCannotReachAnOutput : Obligations.EarlierStateCannotReachAnOutput := by
  intro s₁ s₂ t₁ p ps restart e
  obtain ⟨u₁, u₂, h₁, h₂, agree, inv⟩ := step_restart_agree restart ps s₁ s₂
  have rest : drive ps u₁ = .next t₁ := (drive_cons h₁).symm.trans e
  obtain ⟨t₂, rest₂, agree'⟩ := agree.drive rest
  exact ⟨t₂, (drive_cons h₂).trans rest₂, agree'.sameOutputs (drive_keeps_inv inv rest)⟩

end Sys2Proof.Machine

/-! PROOFS. What the unit holds after a START and the bytes of a stream (rules R30, R48, R57), with
NOPs and samplings anywhere among the inputs, and what an END then does. -/

namespace Sys2Proof.Machine

theorem sameUnit_present (ps : List PortInput) (s : State) : sameUnit s (s.present ps) :=
  ⟨rfl, rfl, rfl, rfl, rfl⟩

theorem sameUnit_recordSample (r : Option RomSizeSample) (s : State) :
    sameUnit s (s.recordSample r) :=
  ⟨rfl, rfl, rfl, rfl, rfl⟩

/-- A command word that decodes runs its instruction, the rest of the inputs still scheduled. -/
theorem step_command {w : CommandWord} {i : Instr} (h : decode (.cmd w) = .ok i) (s : State)
    (ps : List PortInput) : step (s.present (.edge false w :: ps)) = exec i (s.present ps) := by
  simp only [step, State.fetch, presented_present, consume_present, h]

/-- A sampling of the decoder's ports only leaves the host's note. -/
theorem step_sample (s : State) (ps : List PortInput) :
    ∃ r, step (s.present (.sampleRomSize :: ps)) = .next ((s.present ps).recordSample r) :=
  exec_romSizeCode (headerByte s.hdr 0x48) (s.present ps)

theorem step_end (s : State) (ps : List PortInput) :
    step (s.present (inputOf .endStream :: ps)) = execEnd (s.present ps) := rfl

theorem drive_end_running {s : State} (h : s.phase = .skip ∨ s.phase = .capture) :
    drive [inputOf .endStream] s = .next ((s.present []).raise .seek) :=
  drive_cons ((step_end s []).trans (execEnd_running h))

theorem drive_end_ignored {s : State} (h : s.phase ≠ .skip) (h' : s.phase ≠ .capture) :
    drive [inputOf .endStream] s = .next (s.present []) :=
  drive_cons (t := s.present []) ((step_end s []).trans (execEnd_ignored h h'))

/-- The first of the inputs that give a load its bytes: one that gives none, or a PUSH. -/
theorem pushedBytes_cons_cases {p : PortInput} {ps : List PortInput} {bs : List Byte}
    (given : pushedBytes (p :: ps) = some bs) :
    (p = .sampleRomSize ∧ pushedBytes ps = some bs) ∨
    (∃ w, p = .edge false w ∧ cmdField w = 0#3 ∧ pushedBytes ps = some bs) ∨
    (∃ w rest, p = .edge false w ∧ cmdField w = 2#3 ∧ pushedBytes ps = some rest ∧
      bs = dataField w :: rest) := by
  cases p with
  | sampleRomSize => exact .inl ⟨rfl, given⟩
  | edge rst w =>
    cases rst with
    | true => cases given
    | false =>
      rw [pushedBytes] at given
      split at given
      · next cmd => exact .inr (.inl ⟨w, rfl, cmd, given⟩)
      · split at given
        · next cmd =>
          obtain ⟨rest, rest_given, rfl⟩ := Option.map_eq_some_iff.mp given
          exact .inr (.inr ⟨w, rest, rfl, cmd, rest_given, rfl⟩)
        · cases given

/-- The unit after a START and then the bytes `bs`, neither ended nor aborted: OFS counts the bytes
up to 0x150, and each header register below OFS holds its byte of the stream. -/
structure Received (bs : List Byte) (s : State) : Prop where
  inv : s.Inv
  phase : s.phase = .skip ∨ s.phase = .capture ∨ s.phase = .done
  ofs : s.ofs.val = min bs.length 336
  hdr : ∀ i, 256 + i < s.ofs.val → bs[256 + i]? = some (headerByte s.hdr i)

theorem received_beginLoad (s : State) : Received [] s.beginLoad where
  inv := beginLoad_inv s
  phase := .inl rfl
  ofs := rfl
  hdr i hi := by simp at hi

namespace Received

theorem of_sameUnit {bs : List Byte} {s t : State} (got : Received bs s) (same : sameUnit s t) :
    Received bs t := by
  have inv := inv_of_sameUnit same got.inv
  obtain ⟨hdr, ofs, phase, -, -⟩ := same
  exact ⟨inv, phase ▸ got.phase, ofs ▸ got.ofs, hdr ▸ ofs ▸ got.hdr⟩

/-- A short stream leaves the load running: DONE has counted 0x150 bytes. -/
theorem running {bs : List Byte} {s : State} (got : Received bs s) (short : bs.length < 336) :
    s.phase = .skip ∨ s.phase = .capture := by
  have ofs := got.ofs
  rcases got.phase with h | h | h
  · exact .inl h
  · exact .inr h
  · obtain ⟨full, -⟩ := (inv_iff_of_done h).mp got.inv
    omega

/-- A stream of 0x150 bytes finishes the load: a running one has counted fewer. -/
theorem done {bs : List Byte} {s : State} (got : Received bs s) (long : 336 ≤ bs.length) :
    s.phase = .done := by
  have ofs := got.ofs
  rcases got.phase with h | h | h
  · have := ofs_lt_of_inv_running got.inv (.inl h)
    omega
  · have := ofs_lt_of_inv_running got.inv (.inr h)
    omega
  · exact h

theorem dropByte {bs : List Byte} {s : State} (got : Received bs s) (h : s.phase = .skip)
    (r : s.ofs.val < 256) (b : Byte) : Received (bs ++ [b]) s.dropByte where
  inv := dropByte_inv got.inv h
  phase := by simp only [dropByte_phase, h]; split <;> simp
  ofs := by
    have ofs := got.ofs
    rw [dropByte_ofs_val r, List.length_append, List.length_singleton]
    omega
  hdr i hi := by rw [dropByte_ofs_val r] at hi; omega

theorem captureByte {bs : List Byte} {s : State} (got : Received bs s) (h : s.phase = .capture)
    (r : 256 ≤ s.ofs.val) (r' : s.ofs.val < 336) (b : Byte) :
    Received (bs ++ [b]) (s.captureByte b) where
  inv := captureByte_inv b got.inv h
  phase := by simp only [captureByte_phase, h]; split <;> simp
  ofs := by
    have ofs := got.ofs
    rw [captureByte_ofs_val b r', List.length_append, List.length_singleton]
    omega
  hdr i hi := by
    have length : bs.length = s.ofs.val := by have := got.ofs; omega
    rw [captureByte_ofs_val b r'] at hi
    rw [captureByte_hdr, headerIndex_eq, headerByte_set _ _ _ (by omega)]
    split
    · rw [show 256 + i = bs.length by omega, List.getElem?_concat_length]
    · rw [List.getElem?_append_left (by omega)]
      exact got.hdr i (by omega)

/-- A finished load ignores what follows. -/
theorem append_of_done {bs : List Byte} {s : State} (got : Received bs s) (h : s.phase = .done)
    (more : List Byte) : Received (bs ++ more) s := by
  obtain ⟨full, -⟩ := (inv_iff_of_done h).mp got.inv
  have ofs := got.ofs
  refine ⟨got.inv, got.phase, by rw [List.length_append]; omega, fun i hi => ?_⟩
  rw [List.getElem?_append_left (by omega)]
  exact got.hdr i hi

/-- One more PUSH, in each phase the load can be in: never a fault. -/
theorem execPush {bs : List Byte} {s : State} (got : Received bs s) (b : Byte) :
    ∃ t, Machine.execPush b s = .next t ∧ Received (bs ++ [b]) t := by
  rcases got.phase with h | h | h
  · obtain ⟨below, -⟩ := (inv_iff_of_skip h).mp got.inv
    exact ⟨_, execPush_skip b h below, got.dropByte h below b⟩
  · obtain ⟨low, high, -⟩ := (inv_iff_of_capture h).mp got.inv
    exact ⟨_, execPush_capture b h low high, got.captureByte h low high b⟩
  · exact ⟨_, execPush_ignored b (by simp [h]) (by simp [h]), got.append_of_done h [b]⟩

/-- The bytes of a sequence of inputs are received one after the other, by induction on the
inputs. -/
theorem drive {ps : List PortInput} : ∀ {bs more : List Byte} {s : State}, Received bs s →
    pushedBytes ps = some more →
    ∃ t, Machine.drive ps s = .next t ∧ Received (bs ++ more) t := by
  induction ps with
  | nil =>
    intro bs more s got given
    cases given
    rw [List.append_nil]
    exact ⟨_, drive_nil s, got.of_sameUnit (sameUnit_present [] s)⟩
  | cons p ps ih =>
    intro bs more s got given
    have got' : Received bs (s.present ps) := got.of_sameUnit (sameUnit_present ps s)
    rcases pushedBytes_cons_cases given with ⟨rfl, rest_given⟩ | ⟨w, rfl, cmd, rest_given⟩ |
      ⟨w, rest, rfl, cmd, rest_given, rfl⟩
    · obtain ⟨r, answers⟩ := step_sample s ps
      rw [drive_cons answers]
      exact ih (got'.of_sameUnit (sameUnit_recordSample r _)) rest_given
    · have decoded : decode (.cmd w) = .ok .nop := by simp [decode, decodeCommand, cmd]
      rw [drive_cons (step_command decoded s ps)]
      exact ih got' rest_given
    · have decoded : decode (.cmd w) = .ok (.push (dataField w)) := by
        simp [decode, decodeCommand, cmd]
      obtain ⟨u, pushed, got''⟩ := got'.execPush (dataField w)
      rw [drive_cons ((step_command decoded s ps).trans pushed), List.append_cons]
      exact ih got'' rest_given

end Received

/-- A START and the bytes `bs`, from any state. -/
theorem drive_start_received (s : State) {ps : List PortInput} {bs : List Byte}
    (given : pushedBytes ps = some bs) :
    ∃ t, drive (inputOf .start :: ps) s = .next t ∧ Received bs t := by
  have started : step (s.present (inputOf .start :: ps)) = .next (s.present ps).beginLoad := rfl
  rw [drive_cons started]
  exact (received_beginLoad _).drive given

/-- Settles O48: the END finds a load of 0x150 bytes in DONE and is ignored, and finds a shorter one
running and raises SEEK. -/
theorem loadSucceedsIffImageHoldsHeader : Obligations.LoadSucceedsIffImageHoldsHeader := by
  intro s img
  obtain ⟨u, received, got⟩ := drive_start_received s (pushedBytes_pushes img)
  have load : drive (loadInputs img) s = drive [inputOf .endStream] u := drive_append received _
  have ofs := got.ofs
  by_cases long : 336 ≤ img.length
  · have done := got.done long
    refine ⟨u.present [], load.trans (drive_end_ignored (by simp [done]) (by simp [done])),
      by simp [done, long], fun _ => ⟨_, dataPorts_of_done done, fun i hi => ?_⟩, by omega⟩
    exact got.hdr i (by omega)
  · have running := got.running (by omega)
    exact ⟨(u.present []).raise .seek, load.trans (drive_end_running running), by simp [long],
      by omega, fun _ => ⟨rfl, rfl, ofs.trans (by omega), dataPorts_of_ne_done (by simp)⟩⟩

end Sys2Proof.Machine

/-! PROOFS. The command word as its two fields (rules R38 to R41), and what each decodes to. -/

namespace Sys2Proof

@[simp] theorem cmdField_commandWord (c : BitVec 3) (d : Byte) : cmdField (commandWord c d) = c :=
  BitVec.extractLsb'_append_eq_left

@[simp] theorem dataField_commandWord (c : BitVec 3) (d : Byte) : dataField (commandWord c d) = d :=
  BitVec.extractLsb'_append_eq_right

/-- A command word is its two fields side by side. -/
theorem commandWord_fields (w : CommandWord) : commandWord (cmdField w) (dataField w) = w :=
  BitVec.extractLsb'_append_extractLsb'

/-- The mask 0x700 of every command row keeps `cmd` and clears `data`. -/
theorem and_commandMask (w : CommandWord) : w &&& 0x700#11 = commandWord (cmdField w) 0#8 := by
  calc w &&& 0x700#11 = (cmdField w ++ dataField w) &&& (BitVec.allOnes 3 ++ 0#8) :=
        congrArg₂ (· &&& ·) (commandWord_fields w).symm rfl
    _ = commandWord (cmdField w) 0#8 := by
        rw [BitVec.and_append, BitVec.and_allOnes, BitVec.and_zero, commandWord]

/-- The bits of a command word under its row's mask are the row's own exactly by its `cmd`. -/
theorem and_commandMask_eq_iff {w : CommandWord} {c : BitVec 3} :
    w &&& 0x700#11 = commandWord c 0#8 ↔ cmdField w = c := by
  rw [and_commandMask]
  exact BitVec.append_left_inj 0#8

theorem cmdField_toNat (w : CommandWord) : (cmdField w).toNat = w.toNat / 256 := by
  rw [cmdField, BitVec.extractLsb'_toNat, Nat.shiftRight_eq_div_pow]
  omega

theorem dataField_toNat (w : CommandWord) : (dataField w).toNat = w.toNat % 256 := by
  rw [dataField, BitVec.extractLsb'_toNat, Nat.shiftRight_zero]

/-- What a command word decodes to, by its `cmd` field and nothing else (rule R39). -/
theorem decode_cmd_iff {w : CommandWord} {i : Instr} :
    decode (.cmd w) = .ok i ↔
      (cmdField w = 0#3 ∧ i = .nop) ∨ (cmdField w = 1#3 ∧ i = .start) ∨
      (cmdField w = 2#3 ∧ i = .push (dataField w)) ∨ (cmdField w = 3#3 ∧ i = .endStream) ∨
      (cmdField w = 4#3 ∧ i = .abort) := by
  refine ⟨Machine.decodeCommand_cases, ?_⟩
  rintro (⟨c, rfl⟩ | ⟨c, rfl⟩ | ⟨c, rfl⟩ | ⟨c, rfl⟩ | ⟨c, rfl⟩) <;> simp [decode, decodeCommand, c]

/-- A command word decodes to no instruction exactly for the reserved `cmd` values (rule R41). -/
theorem decode_cmd_error_iff {w : CommandWord} {d : DecodeError} :
    decode (.cmd w) = .error d ↔ 5 ≤ (cmdField w).toNat ∧ d = .reservedCommand (cmdField w) := by
  have values : ∀ c : BitVec 3, 5 ≤ c.toNat ↔
      c ≠ 0#3 ∧ c ≠ 1#3 ∧ c ≠ 2#3 ∧ c ≠ 3#3 ∧ c ≠ 4#3 := by decide
  rw [values, decode, decodeCommand]
  split
  case h_6 c0 c1 c2 c3 c4 =>
    rw [Except.error.injEq, eq_comm]
    exact ⟨fun h => ⟨⟨c0, c1, c2, c3, c4⟩, h⟩, fun h => h.2⟩
  all_goals next c => simp [c]

/-- Settles O2: under the mask a word shows its `cmd`, and its `cmd` says what it decodes to. -/
theorem commandRowsOfTheTable : Obligations.CommandRowsOfTheTable := by
  intro w
  have row (c : BitVec 3) {i : Instr} (h : decode (.cmd w) = .ok i ↔ cmdField w = c) :
      w &&& 0x700#11 = commandWord c 0#8 ↔ decode (.cmd w) = .ok i :=
    and_commandMask_eq_iff.trans h.symm
  exact ⟨cmdField_toNat w, dataField_toNat w, row 0#3 (by simp [decode_cmd_iff]),
    row 1#3 (by simp [decode_cmd_iff]), row 2#3 (by simp [decode_cmd_iff]),
    row 3#3 (by simp [decode_cmd_iff]), row 4#3 (by simp [decode_cmd_iff])⟩

end Sys2Proof

/-! PROOFS. Encoding and decoding are inverse, and the rows of the opcode table are what the decoder
tells apart (rules R39, R40, R44, R69). -/

namespace Sys2Proof

/-- A canonical command word decodes by the `cmd` it was made of; a size code falls in the row of its
fixed bits at every value of the free ones. -/
theorem decode_encode (i : Instr) : decode (encode i) = .ok i := by
  cases i
  case nop | start | push | endStream | abort => simp [encode, decode_cmd_iff]
  case romsizeFallback1 c | romsizeFallback2 c | romsizeFallback3 c | romsizeFallback4 c |
      romsizeFallback5 c | romsizeFallback6 c => revert c; decide
  all_goals rfl

/-- Settles O3: the free bits of a row are exactly its operand. -/
theorem decodeOfEncode : Obligations.DecodeOfEncode :=
  fun i _ => decode_encode i

/-- Settles O1: each written-out word is the encoding of its instruction. -/
theorem writtenOutWordsDecode : Obligations.WrittenOutWordsDecode :=
  ⟨decode_encode .nop, decode_encode .start, decode_encode (.push 0xCE#8), decode_encode .endStream,
    decode_encode .abort, decode_encode .romsize5, decode_encode .romsizeFallback0,
    decode_encode (.romsizeFallback5 0b010010#6), decode_encode (.romsizeFallback6 0b1111111#7)⟩

/-- Every ROM size code is the encoding of the row it falls in. -/
theorem encode_decodeRomSizeCode : ∀ code : Byte, encode (decodeRomSizeCode code) = .rsc code := by
  decide

/-- A command word that decodes is the canonical word, but for the data bits that are ignored. -/
theorem encode_of_decode_cmd {w : CommandWord} {i : Instr} (h : decode (.cmd w) = .ok i) :
    encode i = .cmd (if cmdField w = 2#3 then w else w &&& 0x700#11) := by
  rcases decode_cmd_iff.mp h with ⟨c, rfl⟩ | ⟨c, rfl⟩ | ⟨c, rfl⟩ | ⟨c, rfl⟩ | ⟨c, rfl⟩
  case inr.inr.inl =>
    rw [encode, if_pos c, ← c, commandWord_fields]
  all_goals simp [encode, and_commandMask, c]

/-- Settles O4, format by format. -/
theorem encodeOfDecode : Obligations.EncodeOfDecode :=
  ⟨fun code => ⟨_, rfl, encode_decodeRomSizeCode code⟩, fun _ _ => encode_of_decode_cmd⟩

theorem liesIn_iff {e : EncodedWord} {r : TableRow} :
    e.liesIn r = true ↔ e.width = r.width ∧ e.bits &&& r.mask = r.bits := by
  simp [EncodedWord.liesIn]

/-- An encoding lies in its instruction's row. -/
theorem encode_liesIn : ∀ i : Instr, (encode i).liesIn i.tableRow = true
  | .nop => Laws.EncodesInRow.nop
  | .start => Laws.EncodesInRow.start
  | .push data => Laws.EncodesInRow.push data
  | .endStream => Laws.EncodesInRow.endStream
  | .abort => Laws.EncodesInRow.abort
  | .romsize0 => Laws.EncodesInRow.romsize0
  | .romsize1 => Laws.EncodesInRow.romsize1
  | .romsize2 => Laws.EncodesInRow.romsize2
  | .romsize3 => Laws.EncodesInRow.romsize3
  | .romsize4 => Laws.EncodesInRow.romsize4
  | .romsize5 => Laws.EncodesInRow.romsize5
  | .romsize6 => Laws.EncodesInRow.romsize6
  | .romsize7 => Laws.EncodesInRow.romsize7
  | .romsize8 => Laws.EncodesInRow.romsize8
  | .romsizeFallback0 => Laws.EncodesInRow.romsizeFallback0
  | .romsizeFallback1 c => Laws.EncodesInRow.romsizeFallback1 c
  | .romsizeFallback2 c => Laws.EncodesInRow.romsizeFallback2 c
  | .romsizeFallback3 c => Laws.EncodesInRow.romsizeFallback3 c
  | .romsizeFallback4 c => Laws.EncodesInRow.romsizeFallback4 c
  | .romsizeFallback5 c => Laws.EncodesInRow.romsizeFallback5 c
  | .romsizeFallback6 c => Laws.EncodesInRow.romsizeFallback6 c

/-- The 21 rows of the opcode table, each by an instruction of it. -/
def tableRows : List TableRow :=
  [Instr.nop, .start, .push 0, .endStream, .abort, .romsize0, .romsize1, .romsize2, .romsize3,
    .romsize4, .romsize5, .romsize6, .romsize7, .romsize8, .romsizeFallback0, .romsizeFallback1 0,
    .romsizeFallback2 0, .romsizeFallback3 0, .romsizeFallback4 0, .romsizeFallback5 0,
    .romsizeFallback6 0].map Instr.tableRow

theorem tableRow_mem (i : Instr) : i.tableRow ∈ tableRows := by
  cases i <;> simp [tableRows, Instr.tableRow]

/-- Two rows of one width whose fixed bits agree wherever both fix a bit are the same row. -/
theorem tableRows_disjoint : ∀ r ∈ tableRows, ∀ r' ∈ tableRows,
    r.width = r'.width → r.bits &&& r'.mask = r'.bits &&& r.mask → r = r' := by
  decide

/-- The rows of commands fix `cmd` alone, at a value that is not reserved. -/
theorem commandRows_bounds : ∀ r ∈ tableRows, r.width = 11 → r.mask = 0x700 ∧ r.bits < 0x500 := by
  decide

/-- No word lies in two rows: its bits are the fixed bits of both. -/
theorem liesIn_unique {e : EncodedWord} {i j : Instr} (hi : e.liesIn i.tableRow = true)
    (hj : e.liesIn j.tableRow = true) : i.tableRow = j.tableRow := by
  obtain ⟨width, bits⟩ := liesIn_iff.mp hi
  obtain ⟨width', bits'⟩ := liesIn_iff.mp hj
  refine tableRows_disjoint _ (tableRow_mem i) _ (tableRow_mem j) (width.symm.trans width') ?_
  rw [← bits, ← bits', Nat.and_right_comm]

/-- A command word under the mask of a command row, as a number. -/
theorem toNat_and_commandMask (w : CommandWord) : w.toNat &&& 0x700 = (cmdField w).toNat * 256 := by
  have masked : (w &&& 0x700#11).toNat = (commandWord (cmdField w) 0#8).toNat :=
    congrArg BitVec.toNat (and_commandMask w)
  rw [commandWord, BitVec.toNat_append] at masked
  simpa [Nat.shiftLeft_eq] using masked

/-- The row of a command is the one with its `cmd` in bits 10 to 8. -/
theorem tableRow_of_decode_cmd {w : CommandWord} {i : Instr} (h : decode (.cmd w) = .ok i) :
    i.tableRow = ⟨11, (cmdField w).toNat * 256, 0x700⟩ := by
  rcases decode_cmd_iff.mp h with ⟨c, rfl⟩ | ⟨c, rfl⟩ | ⟨c, rfl⟩ | ⟨c, rfl⟩ | ⟨c, rfl⟩ <;>
    rw [c] <;> rfl

/-- Whatever decodes lies in the row of what it decodes to. -/
theorem liesIn_of_decode {e : EncodedWord} {i : Instr} (h : decode e = .ok i) :
    e.liesIn i.tableRow = true := by
  cases e with
  | rsc code =>
    cases h
    exact encode_decodeRomSizeCode code ▸ encode_liesIn (decodeRomSizeCode code)
  | cmd w =>
    rw [liesIn_iff, tableRow_of_decode_cmd h]
    exact ⟨rfl, toNat_and_commandMask w⟩

/-- A word that lies in some row decodes: the reserved command words lie in none. -/
theorem exists_decode_of_liesIn {e : EncodedWord} {i : Instr} (h : e.liesIn i.tableRow = true) :
    ∃ j, decode e = .ok j := by
  cases e with
  | rsc code => exact ⟨_, rfl⟩
  | cmd w =>
    cases decoded : decode (.cmd w) with
    | ok j => exact ⟨j, rfl⟩
    | error d =>
      obtain ⟨reserved, -⟩ := decode_cmd_error_iff.mp decoded
      obtain ⟨width, bits⟩ := liesIn_iff.mp h
      obtain ⟨mask, below⟩ := commandRows_bounds _ (tableRow_mem i) width.symm
      rw [mask, EncodedWord.bits, toNat_and_commandMask] at bits
      omega

/-- Settles O5: a word that lies in a row decodes, into a row it lies in, and it lies in no two. -/
theorem tableRowsAreTheDecoder : Obligations.TableRowsAreTheDecoder := by
  refine fun e i => ⟨fun lies => ?_, fun ⟨j, decoded, row⟩ => row ▸ liesIn_of_decode decoded⟩
  obtain ⟨j, decoded⟩ := exists_decode_of_liesIn lies
  exact ⟨j, decoded, liesIn_unique (liesIn_of_decode decoded) lies⟩

end Sys2Proof

/-! PROOFS. When a step is refused (rule R41). -/

namespace Sys2Proof.Machine

/-- A reserved command word is refused by name. -/
theorem step_reserved {s : State} {w : CommandWord} (input : s.presented = .edge false w)
    (reserved : 5 ≤ (cmdField w).toNat) : step s = .refused (.reservedCommand w) := by
  have decoded := decode_cmd_error_iff.mpr ⟨reserved, rfl⟩
  simp only [step, State.fetch, input, decoded]

/-- Nothing else is: a reset answers, and so or with a fault does whatever decodes. -/
theorem step_refused_cases {s : State} {r : Refusal} (e : step s = .refused r) :
    ∃ w, s.presented = .edge false w ∧ 5 ≤ (cmdField w).toNat ∧ r = .reservedCommand w := by
  unfold step State.fetch at e
  cases input : s.presented with
  | sampleRomSize =>
    rw [input] at e
    exact absurd e (exec_not_refused _ _ _)
  | edge rst w =>
    cases rst with
    | true => rw [input] at e; cases e
    | false =>
      cases decoded : decode (.cmd w) with
      | ok i =>
        simp only [input, decoded] at e
        exact absurd e (exec_not_refused _ _ _)
      | error d =>
        simp only [input, decoded] at e
        cases e
        exact ⟨w, rfl, (decode_cmd_error_iff.mp decoded).1, rfl⟩

/-- Settles O6: the reserved words are the ones that do not decode, and no instruction refuses. -/
theorem stepRefusesExactlyReservedCommands : Obligations.StepRefusesExactlyReservedCommands := by
  refine fun s r => ⟨step_refused_cases, ?_⟩
  rintro ⟨w, input, reserved, rfl⟩
  exact step_reserved input reserved

end Sys2Proof.Machine

/-! PROOFS. The layout of the header record (rules R42, R76). -/

namespace Sys2Proof.Machine

theorem mem_headerFields (f : HeaderField) : f ∈ headerFields := by
  cases f <;> decide

/-- The field at each place of rule R42's table begins at the sum of the widths before it. -/
theorem first_eq_sum_take : ∀ n : Fin headerFields.length,
    headerFields[n].first = ((headerFields.take n).map HeaderField.width).sum := by
  decide

/-- The same for a field with the fields before it. -/
theorem first_eq_sum_before {before after : List HeaderField} {f : HeaderField}
    (split : headerFields = before ++ f :: after) :
    f.first = (before.map HeaderField.width).sum := by
  have place : before.length < headerFields.length := by simp [split]
  have running := first_eq_sum_take ⟨before.length, place⟩
  simpa [split] using running

theorem fieldPort_of_done {s : State} (h : s.phase = .done) (f : HeaderField) :
    s.fieldPort f = some (headerSlice s.hdr f.first f.width) :=
  if_pos ((headerValid_iff s).mpr h)

theorem headerSlice_getElem (h : HeaderFile) {first n k : Nat} (hk : k < n) :
    (headerSlice h first n)[k] = headerByte h (first + k) := by
  simp [headerSlice]

/-- Settles O31: the layout row by row; the data ports have a value in DONE only, where a field's
port is its slice of HDR. -/
theorem fieldLayoutIsTheRunningSum : Obligations.FieldLayoutIsTheRunningSum := by
  refine ⟨mem_headerFields, by decide, fun _ _ _ => first_eq_sum_before, rfl, fun s f d shown => ?_⟩
  have done : s.phase = .done := (dataPorts_isSome_iff s).mp (by simp [shown])
  cases (dataPorts_of_done done).symm.trans shown
  exact ⟨_, fieldPort_of_done done f, fun k hk => headerSlice_getElem s.hdr hk⟩

end Sys2Proof.Machine

/-! PROOFS. The pseudo-commands of a trace (rule R48). -/

namespace Sys2Proof.Machine

@[simp] theorem traceInputs_nil : traceInputs [] = [] := rfl

@[simp] theorem traceInputs_cons (l : TraceLine) (ls : List TraceLine) :
    traceInputs (l :: ls) = TraceLine.inputs l ++ traceInputs ls := rfl

@[simp] theorem traceInputs_append (ls ls' : List TraceLine) :
    traceInputs (ls ++ ls') = traceInputs ls ++ traceInputs ls' :=
  List.flatMap_append

/-- A line that stands for one input, repeated. -/
theorem traceInputs_replicate {l : TraceLine} {p : PortInput} (one : TraceLine.inputs l = [p])
    (n : Nat) : traceInputs (List.replicate n l) = List.replicate n p := by
  induction n with
  | zero => rfl
  | succ n ih => rw [List.replicate_succ, traceInputs_cons, ih, one, List.singleton_append,
      List.replicate_succ]

/-- A PUSH line per byte. -/
theorem traceInputs_pushes (bs : List Byte) :
    traceInputs (bs.map .push) = bs.map fun b => inputOf (.push b) := by
  induction bs with
  | nil => rfl
  | cons b bs ih => rw [List.map_cons, traceInputs_cons, ih]; rfl

/-- Settles O50: both sides give the same inputs. -/
theorem pseudoCommandsExpand : Obligations.PseudoCommandsExpand := by
  intro n b bs image
  refine ⟨?_, ?_, ?_, ?_, ?_⟩
  · rw [traceInputs_replicate (p := inputOf (.push b)) rfl]
    simp [TraceLine.inputs]
  · simp [TraceLine.inputs, traceInputs_pushes]
  · simp [TraceLine.inputs, traceInputs_pushes, streamInputs]
  · simp [TraceLine.inputs, loadInputs]
  · rw [traceInputs_replicate (p := inputOf .nop) rfl]
    simp [TraceLine.inputs]

end Sys2Proof.Machine

/-! PROOFS. One step and the instruction it runs, and the commands phase by phase (rules R50 to
R55). -/

namespace Sys2Proof.Machine

/-- A step on a command word that decodes runs its instruction. -/
theorem step_eq_exec {s : State} {w : CommandWord} {i : Instr} (input : s.presented = .edge false w)
    (decoded : decode (.cmd w) = .ok i) : step s = exec i s.consume := by
  simp only [step, State.fetch, input, decoded]

/-- A sampling runs the row that the code in `HDR[0x48]` falls in. -/
theorem step_eq_exec_of_sample {s : State} (input : s.presented = .sampleRomSize) :
    step s = exec (decodeRomSizeCode (headerByte s.hdr 0x48)) s.consume := by
  simp only [step, State.fetch, input]

/-- Settles O7: from the command port, from the decoder, and what a step takes. -/
theorem stepRunsDecodedInstruction : Obligations.StepRunsDecodedInstruction := by
  refine fun s => ⟨fun _ _ input decoded _ => step_eq_exec input decoded,
    fun i input decoded _ => ?_,
    fun _ _ scheduled => ⟨presented_cons scheduled, consume_cons scheduled⟩⟩
  cases decoded
  exact step_eq_exec_of_sample input

/-- Settles O10: both parts hold by computation. -/
theorem nopLeavesTheStateUnchanged : Obligations.NopLeavesTheStateUnchanged :=
  ⟨rfl, fun _ => rfl⟩

/-- Settles O11: the next state is `State.beginLoad`, whose phase SKIP fixes the flags and hides the
data ports. -/
theorem startBeginsALoad : Obligations.StartBeginsALoad :=
  ⟨rfl, fun s => ⟨s.beginLoad, rfl, rfl, rfl, rfl, rfl, dataPorts_of_ne_done (by simp), rfl⟩⟩

/-- The three phases that ignore a PUSH, an END and an ABORT are the ones with no load running. -/
theorem ne_skip_and_ne_capture_iff {p : Phase} :
    (p ≠ .skip ∧ p ≠ .capture) ↔ (p = .idle ∨ p = .done ∨ p = .error) := by
  cases p <;> decide

/-- A raised cause shows on the flags as an error and no busy unit. -/
theorem raise_flags (c : Cause) (s : State) :
    (s.raise c).errorFlag = true ∧ (s.raise c).busy = false :=
  ⟨rfl, rfl⟩

/-- Settles O14: END by whether a load is running. -/
theorem endRaisesSeekOnAnUnfinishedLoad : Obligations.EndRaisesSeekOnAnUnfinishedLoad := by
  refine ⟨rfl, fun s => ⟨fun running => ⟨s.raise .seek, execEnd_running running, rfl,
    raise_flags .seek s⟩, fun ignoring => ?_⟩⟩
  obtain ⟨h, h'⟩ := ne_skip_and_ne_capture_iff.mpr ignoring
  exact execEnd_ignored h h'

/-- Settles O15: ABORT by whether a load is running. -/
theorem abortRaisesStreamReadOnAnUnfinishedLoad :
    Obligations.AbortRaisesStreamReadOnAnUnfinishedLoad := by
  refine ⟨rfl, fun s => ⟨fun running => ⟨s.raise .streamRead, execAbort_running running, rfl,
    raise_flags .streamRead s⟩, fun ignoring => ?_⟩⟩
  obtain ⟨h, h'⟩ := ne_skip_and_ne_capture_iff.mpr ignoring
  exact execAbort_ignored h h'

theorem dropByte_phase_of_skip {s : State} (h : s.phase = .skip) :
    s.dropByte.phase = if s.ofs.val = 255 then .capture else .skip := by
  simp [h]

theorem captureByte_phase_of_capture {s : State} (b : Byte) (h : s.phase = .capture) :
    (s.captureByte b).phase = if s.ofs.val = 335 then .done else .capture := by
  simp [h]

/-- A captured byte is written to the register of its offset and to no other. -/
theorem captureByte_headerByte (b : Byte) (s : State) {i : Nat} (hi : i < 80) :
    headerByte (s.captureByte b).hdr i =
      if i = s.ofs.val - 256 then b else headerByte s.hdr i := by
  simp [headerByte_set _ _ _ hi, eq_comm]

/-- SKIP and CAPTURE show the same flags. -/
theorem sameFlags_of_running {s t : State} (hs : s.phase = .skip ∨ s.phase = .capture)
    (ht : t.phase = .skip ∨ t.phase = .capture) : sameFlags s t := by
  rcases hs with hs | hs <;> rcases ht with ht | ht <;>
    simp [sameFlags, State.headerValid, State.errorFlag, State.busy, hs, ht]

/-- DONE shows a valid header, and the data ports with it. -/
theorem flags_of_done {s : State} (h : s.phase = .done) :
    s.headerValid = true ∧ s.busy = false ∧ s.errorFlag = false ∧ s.dataPorts.isSome = true := by
  simp [State.busy, State.errorFlag, dataPorts_isSome_iff, h]

/-- The flags after a captured byte: of a finished load after the last one, else unchanged. -/
theorem captureByte_flags {s : State} (b : Byte) (h : s.phase = .capture) :
    if s.ofs.val = 335 then
      (s.captureByte b).headerValid = true ∧ (s.captureByte b).busy = false ∧
        (s.captureByte b).errorFlag = false ∧ (s.captureByte b).dataPorts.isSome = true
    else sameFlags s (s.captureByte b) := by
  have phase := captureByte_phase_of_capture b h
  split
  · next last =>
    rw [if_pos last] at phase
    exact flags_of_done phase
  · next more =>
    rw [if_neg more] at phase
    exact sameFlags_of_running (.inr h) (.inr phase)

/-- The word `{cmd, data}` as a number (rules R8, R38). -/
theorem commandWord_toNat (c : BitVec 3) (d : Byte) :
    (commandWord c d).toNat = c.toNat * 256 + d.toNat := by
  have cmd := cmdField_toNat (commandWord c d)
  have data := dataField_toNat (commandWord c d)
  rw [cmdField_commandWord] at cmd
  rw [dataField_commandWord] at data
  omega

/-- Settles O12: PUSH by its three cases, dropped, captured and ignored. -/
theorem pushDropsCapturesOrIgnores : Obligations.PushDropsCapturesOrIgnores := by
  refine fun s b => ⟨commandWord_toNat 2#3 b, fun h r => ?_, fun h r r' => ?_, fun ignoring => ?_⟩
  · have phase := dropByte_phase_of_skip h
    have running : s.dropByte.phase = .skip ∨ s.dropByte.phase = .capture := by
      rw [phase]; split <;> simp
    exact ⟨s.dropByte, execPush_skip b h r, dropByte_ofs_val r, phase, rfl, rfl, rfl,
      sameFlags_of_running (.inl h) running, rfl, rfl, rfl⟩
  · exact ⟨s.captureByte b, execPush_capture b h r r', captureByte_ofs_val b r',
      captureByte_phase_of_capture b h, fun i hi => captureByte_headerByte b s hi,
      by simp, rfl, ⟨rfl, rfl, rfl⟩, captureByte_flags b h⟩
  · obtain ⟨h, h'⟩ := ne_skip_and_ne_capture_iff.mpr ignoring
    exact execPush_ignored b h h'

end Sys2Proof.Machine

/-! PROOFS. The transition table of rule R56: each column is the instruction that its command word
decodes to. -/

namespace Sys2Proof.Machine

/-- A step that answers, on a command word that decodes, is the instruction answering. -/
theorem exec_of_step {s t : State} {w : CommandWord} {i : Instr} (e : step s = .next t)
    (input : s.presented = .edge false w) (decoded : decode (.cmd w) = .ok i) :
    exec i s.consume = .next t :=
  (step_eq_exec input decoded).symm.trans e

/-- The column PUSH. -/
theorem execPush_cells {s t : State} {b : Byte} (e : execPush b s = .next t) :
    (s.phase = .skip → t.phase = if s.ofs.val = 255 then .capture else .skip) ∧
    (s.phase = .capture → t.phase = if s.ofs.val = 335 then .done else .capture) ∧
    (s.phase = .idle ∨ s.phase = .done ∨ s.phase = .error → t = s) := by
  rcases execPush_cases e with ⟨h, -, rfl⟩ | ⟨h, -, -, rfl⟩ | ⟨h, h', rfl⟩
  · exact ⟨dropByte_phase_of_skip, by simp [h], by simp [h]⟩
  · exact ⟨by simp [h], captureByte_phase_of_capture b, by simp [h]⟩
  · exact ⟨by simp [h], by simp [h'], fun _ => rfl⟩

/-- The columns END and ABORT, each a cause raised on a running load and ignored elsewhere. -/
theorem raise_cells {s t : State} {c : Cause}
    (h : ((s.phase = .skip ∨ s.phase = .capture) ∧ t = s.raise c) ∨
      (s.phase ≠ .skip ∧ s.phase ≠ .capture ∧ t = s)) :
    (s.phase = .skip ∨ s.phase = .capture → t.phase = .error ∧ t.cause = c) ∧
    (s.phase = .idle ∨ s.phase = .done ∨ s.phase = .error → t = s) := by
  rcases h with ⟨running, rfl⟩ | ⟨h, h', rfl⟩
  · refine ⟨fun _ => ⟨rfl, rfl⟩, fun ignoring => ?_⟩
    obtain ⟨h, h'⟩ := ne_skip_and_ne_capture_iff.mpr ignoring
    exact absurd running (not_or.mpr ⟨h, h'⟩)
  · exact ⟨fun running => absurd running (not_or.mpr ⟨h, h'⟩), fun _ => rfl⟩

/-- Settles O37: row by row for what the host presents, and for a command word column by column. -/
theorem phaseTransitionTable : Obligations.PhaseTransitionTable := by
  intro s t e
  cases input : s.presented with
  | sampleRomSize =>
    obtain ⟨r, sampled⟩ := exec_romSizeCode (headerByte s.hdr 0x48) s.consume
    cases ((step_eq_exec_of_sample input).trans sampled).symm.trans e
    exact sameUnit_consume s
  | edge rst w =>
    cases rst with
    | true =>
      have resets : step s = .next s.consume.resetStep := by simp only [step, State.fetch, input]
      cases resets.symm.trans e
      rfl
    | false =>
      refine ⟨fun cmd => ?_, fun cmd => ?_, fun cmd => ?_, fun cmd => ?_, fun cmd => ?_⟩
      · cases exec_of_step (i := .nop) e input (by simp [decode_cmd_iff, cmd])
        exact sameUnit_consume s
      · cases exec_of_step (i := .start) e input (by simp [decode_cmd_iff, cmd])
        exact ⟨rfl, rfl⟩
      · have pushed := exec_of_step (i := .push (dataField w)) e input
          (by simp [decode_cmd_iff, cmd])
        obtain ⟨skip, capture, ignored⟩ := execPush_cells pushed
        simp only [consume_phase, consume_ofs] at skip capture ignored
        exact ⟨skip, capture, fun h => ignored h ▸ sameUnit_consume s⟩
      · have ended := exec_of_step (i := .endStream) e input (by simp [decode_cmd_iff, cmd])
        obtain ⟨raised, ignored⟩ := raise_cells (execEnd_cases ended)
        rw [consume_phase] at raised ignored
        exact ⟨raised, fun h => ignored h ▸ sameUnit_consume s⟩
      · have aborted := exec_of_step (i := .abort) e input (by simp [decode_cmd_iff, cmd])
        obtain ⟨raised, ignored⟩ := raise_cells (execAbort_cases aborted)
        rw [consume_phase] at raised ignored
        exact ⟨raised, fun h => ignored h ▸ sameUnit_consume s⟩

end Sys2Proof.Machine

/-! PROOFS. A well-formed input is always accepted (rules R50, R80), and a finished run ignores it
unless it restarts the unit (rules R59, R88, R97). -/

namespace Sys2Proof.Machine

/-- The host's duty on the command port is the bound on the field `cmd`. -/
theorem wellFormed_edge_iff {w : CommandWord} :
    (PortInput.edge false w).wellFormed = true ↔ (cmdField w).toNat ≤ 4 :=
  decide_eq_true_iff

/-- A step faults only where the offset lies outside the range of the phase. -/
theorem step_fault_cases {s : State} {r : Fault} (e : step s = .fault r) :
    (s.phase = .skip ∧ 256 ≤ s.ofs.val) ∨
    (s.phase = .capture ∧ (s.ofs.val < 256 ∨ 336 ≤ s.ofs.val)) := by
  unfold step at e
  split at e
  case h_2 i _ =>
    obtain ⟨-, outside⟩ := exec_fault_cases e
    rw [consume_phase, consume_ofs] at outside
    exact outside.imp (fun h => ⟨h.1, h.2.1⟩) (fun h => ⟨h.1, h.2.1⟩)
  all_goals cases e

/-- The table of rule R18 holds the offset inside the range of the phase. -/
theorem step_ne_fault_of_inv {s : State} (inv : s.Inv) (r : Fault) : step s ≠ .fault r := by
  intro e
  rcases step_fault_cases e with ⟨h, outside⟩ | ⟨h, outside⟩
  · obtain ⟨below, -⟩ := (inv_iff_of_skip h).mp inv
    omega
  · obtain ⟨low, high, -⟩ := (inv_iff_of_capture h).mp inv
    omega

/-- Where no step faults, a well-formed input is answered: only reserved words are refused. -/
theorem step_answers {s : State} (wf : s.presented.wellFormed = true)
    (noFault : ∀ r, step s ≠ .fault r) : ∃ t, step s = .next t := by
  cases e : step s with
  | next t => exact ⟨t, rfl⟩
  | fault r => exact absurd e (noFault r)
  | refused r =>
    obtain ⟨w, input, reserved, -⟩ := step_refused_cases e
    rw [input, wellFormed_edge_iff] at wf
    omega

/-- Settles O36: under the invariant no step faults, and every step keeps it. -/
theorem everyInputIsAcceptedInEveryPhase : Obligations.EveryInputIsAcceptedInEveryPhase := by
  intro s inv wf
  obtain ⟨t, e⟩ := step_answers wf (step_ne_fault_of_inv inv)
  exact ⟨t, e, step_keeps_inv inv e⟩

theorem sameUnit_trans {s t u : State} (st : sameUnit s t) (tu : sameUnit t u) : sameUnit s u := by
  obtain ⟨hdr, ofs, phase, cause, acc⟩ := st
  obtain ⟨hdr', ofs', phase', cause', acc'⟩ := tu
  exact ⟨hdr.trans hdr', ofs.trans ofs', phase.trans phase', cause.trans cause', acc.trans acc'⟩

/-- The output ports are a function of the five elements of the unit (rule R74). -/
theorem sameOutputs_of_sameUnit {s t : State} (same : sameUnit s t) : sameOutputs s t := by
  obtain ⟨hdr, ofs, phase, cause, acc⟩ := same
  refine ⟨statusPorts_congr phase ofs cause, ?_⟩
  by_cases h : s.phase = .done
  · rw [dataPorts_of_done h, dataPorts_of_done (phase ▸ h), dataPortsOf_congr hdr acc]
  · rw [dataPorts_of_ne_done h, dataPorts_of_ne_done (phase ▸ h)]

/-- No load is running in a run that is over. -/
theorem not_running_of_runOver {s : State} (finished : s.runOver) :
    ¬ (s.phase = .skip ∨ s.phase = .capture) := by
  rcases finished with h | h <;> simp [h]

/-- One input that does not restart the unit: of the six effects only `keep` is left. -/
theorem step_of_runOver {s : State} (finished : s.runOver) (wf : s.presented.wellFormed = true)
    (stay : restarts s.presented = false) : ∃ t, step s = .next t ∧ sameUnit s t := by
  have notRunning := not_running_of_runOver finished
  have noFault : ∀ r, step s ≠ .fault r := fun r e =>
    notRunning ((step_fault_cases e).imp And.left And.left)
  obtain ⟨t, e⟩ := step_answers wf noFault
  refine ⟨t, e, ?_⟩
  cases step_effect e with
  | reset input _ | start input _ => simp [stay] at input
  | drop _ _ _ phase _ _ => exact absurd (.inl phase) notRunning
  | capture _ _ _ phase _ _ _ => exact absurd (.inr phase) notRunning
  | raise _ _ _ _ phase _ => exact absurd phase notRunning
  | keep _ same => exact same

/-- Any number of them, by induction on the inputs. -/
theorem drive_of_runOver {ps : List PortInput} : ∀ {s : State}, s.runOver →
    (∀ p ∈ ps, p.wellFormed = true ∧ restarts p = false) →
    ∃ t, drive ps s = .next t ∧ sameUnit s t := by
  induction ps with
  | nil => exact fun {s} _ _ => ⟨_, drive_nil s, sameUnit_present [] s⟩
  | cons p ps ih =>
    intro s finished inputs
    obtain ⟨⟨wf, stay⟩, inputs'⟩ := List.forall_mem_cons.mp inputs
    obtain ⟨u, e, same⟩ := step_of_runOver (s := s.present (p :: ps)) finished wf stay
    have phase : s.phase = u.phase := by
      obtain ⟨-, -, phase, -⟩ := same
      exact phase
    have finished' : u.runOver := by simpa only [State.runOver, phase] using finished
    obtain ⟨t, rest, same'⟩ := ih finished' inputs'
    exact ⟨t, (drive_cons e).trans rest, sameUnit_trans same same'⟩

/-- Settles O42: the unit is kept, and the ports are a function of it. -/
theorem finishedRunChangesOnlyByRestart : Obligations.FinishedRunChangesOnlyByRestart := by
  intro s ps finished inputs
  obtain ⟨t, driven, same⟩ := drive_of_runOver finished inputs
  exact ⟨t, driven, same, sameOutputs_of_sameUnit same⟩

end Sys2Proof.Machine

/-! PROOFS. Taking the NOPs out of a sequence (rules R51, R108). -/

namespace Sys2Proof.Machine

theorem isNopInput_iff {p : PortInput} :
    isNopInput p = true ↔ ∃ w, p = .edge false w ∧ cmdField w = 0#3 := by
  match p with
  | .sampleRomSize => simp [isNopInput]
  | .edge true w => simp [isNopInput]
  | .edge false w => simp [isNopInput]

/-- What was scheduled before is not looked at. -/
theorem drive_present (ps qs : List PortInput) (s : State) :
    drive ps (s.present qs) = drive ps s := rfl

/-- A NOP in front, with any data bits, changes no outcome. -/
theorem drive_nop_cons {p : PortInput} (nop : isNopInput p = true) (ps : List PortInput)
    (s : State) : drive (p :: ps) s = drive ps s := by
  obtain ⟨w, rfl, cmd⟩ := isNopInput_iff.mp nop
  have decoded : decode (.cmd w) = .ok .nop := decode_cmd_iff.mpr (.inl ⟨cmd, rfl⟩)
  have answers : step (s.present (.edge false w :: ps)) = .next (s.present ps) :=
    step_command decoded s ps
  exact (drive_cons answers).trans (drive_present ps ps s)

/-- Two sequences that are alike from every state stay alike behind one more input: its step does
not look at what is scheduled after it. -/
theorem drive_cons_congr {ps qs : List PortInput} (alike : ∀ t, drive ps t = drive qs t)
    (p : PortInput) (s : State) : drive (p :: ps) s = drive (p :: qs) s := by
  cases e : step (s.present (p :: ps)) with
  | next t =>
    calc drive (p :: ps) s = drive ps t := drive_cons e
      _ = drive qs t := alike t
      _ = drive qs (t.present qs) := (drive_present qs qs t).symm
      _ = drive (p :: qs) s := (drive_cons (step_present_tail e qs)).symm
  | fault r => rw [drive_fault e, drive_fault (step_fault_tail e qs)]
  | refused r => rw [drive_refused e, drive_refused (step_refused_tail e qs)]

/-- Settles O44, by induction on the inputs: a NOP in front is taken out, any other input stays. -/
theorem nopsChangeNoOutcome : Obligations.NopsChangeNoOutcome := by
  intro s ps
  induction ps generalizing s with
  | nil => rfl
  | cons p ps ih =>
    by_cases nop : isNopInput p = true
    · rw [List.filter_cons_of_neg (by simp [nop]), ih, drive_nop_cons nop]
    · rw [List.filter_cons_of_pos (by simp [nop])]
      exact drive_cons_congr ih p s

end Sys2Proof.Machine

/-! PROOFS. What a load captures, and how it ends by the number of its bytes (rules R57, R58). -/

namespace Sys2Proof.Machine

/-- Neither ended nor aborted, the load has no cause. -/
theorem Received.cause {bs : List Byte} {s : State} (got : Received bs s) : s.cause = .none := by
  rcases got.phase with h | h | h
  · obtain ⟨-, cause, -⟩ := (inv_iff_of_skip h).mp got.inv
    exact cause
  · obtain ⟨-, -, cause, -⟩ := (inv_iff_of_capture h).mp got.inv
    exact cause
  · obtain ⟨-, cause, -⟩ := (inv_iff_of_done h).mp got.inv
    exact cause

/-- Settles O46: after 0x150 bytes the load is DONE, where each register holds its byte and the
invariant gives ACC. -/
theorem captureIsExact : Obligations.CaptureIsExact := by
  intro s ps img given length
  obtain ⟨t, driven, got⟩ := drive_start_received s given
  have done := got.done length.ge
  obtain ⟨ofs, cause, acc⟩ := (inv_iff_of_done done).mp got.inv
  exact ⟨t, driven, done, ofs, cause, fun i hi => got.hdr i (by omega), acc⟩

/-- A received load by the number of its bytes. -/
theorem Received.outcome {bs : List Byte} {s : State} (got : Received bs s) :
    if 0x150 ≤ bs.length then s.phase = .done ∧ s.ofs.val = 0x150 ∧ s.cause = .none
    else s.busy = true ∧ s.ofs.val = bs.length ∧ s.cause = .none := by
  have ofs := got.ofs
  split
  · next long => exact ⟨got.done long, by omega, got.cause⟩
  · next short =>
    exact ⟨(busy_iff s).mpr (got.running (by omega)), by omega, got.cause⟩

/-- An input that raises `c` on a running load and is ignored otherwise, after a START and the bytes
`bs`. -/
theorem drive_start_stopped {p : PortInput} {c : Cause}
    (running : ∀ {u : State}, u.phase = .skip ∨ u.phase = .capture →
      drive [p] u = .next ((u.present []).raise c))
    (ignored : ∀ {u : State}, u.phase ≠ .skip → u.phase ≠ .capture →
      drive [p] u = .next (u.present []))
    (s : State) {ps : List PortInput} {bs : List Byte} (given : pushedBytes ps = some bs) :
    ∃ t, drive (inputOf .start :: (ps ++ [p])) s = .next t ∧
      if 0x150 ≤ bs.length then t.phase = .done ∧ t.ofs.val = 0x150 ∧ t.cause = .none
      else t.phase = .error ∧ t.ofs.val = bs.length ∧ t.cause = c := by
  obtain ⟨u, received, got⟩ := drive_start_received s given
  have stopped : drive (inputOf .start :: (ps ++ [p])) s = drive [p] u := drive_append received _
  have ofs := got.ofs
  by_cases long : 0x150 ≤ bs.length
  · have done := got.done long
    refine ⟨u.present [], stopped.trans (ignored (by simp [done]) (by simp [done])), ?_⟩
    rw [if_pos long]
    exact ⟨done, by rw [present_ofs]; omega, got.cause⟩
  · refine ⟨(u.present []).raise c, stopped.trans (running (got.running (by omega))), ?_⟩
    rw [if_neg long]
    exact ⟨rfl, by rw [raise_ofs, present_ofs]; omega, rfl⟩

theorem step_abort (s : State) (ps : List PortInput) :
    step (s.present (inputOf .abort :: ps)) = execAbort (s.present ps) := rfl

theorem drive_abort_running {s : State} (h : s.phase = .skip ∨ s.phase = .capture) :
    drive [inputOf .abort] s = .next ((s.present []).raise .streamRead) :=
  drive_cons ((step_abort s []).trans (execAbort_running h))

theorem drive_abort_ignored {s : State} (h : s.phase ≠ .skip) (h' : s.phase ≠ .capture) :
    drive [inputOf .abort] s = .next (s.present []) :=
  drive_cons (t := s.present []) ((step_abort s []).trans (execAbort_ignored h h'))

/-- Settles O47: the load alone, then with an END and with an ABORT after it. -/
theorem loadOutcomeByNumberOfBytes : Obligations.LoadOutcomeByNumberOfBytes := by
  intro s ps bs given
  obtain ⟨t, driven, got⟩ := drive_start_received s given
  exact ⟨⟨t, driven, got.outcome⟩, drive_start_stopped drive_end_running drive_end_ignored s given,
    drive_start_stopped drive_abort_running drive_abort_ignored s given⟩

end Sys2Proof.Machine

/-! PROOFS. The closed form of the checksum (rule R63) and the bytes it reads (rules R61, R62). -/

namespace Sys2Proof.Machine

/-- `ck_step` in natural numbers: the complement of `b` is added, so that no subtraction of natural
numbers is cut off at 0. -/
theorem ckStep_toNat (a b : Byte) : (ckStep a b).toNat = (a.toNat + (255 - b.toNat)) % 256 := by
  simp only [ckStep, BitVec.toNat_sub, BitVec.toNat_ofNat]
  omega

/-- Settles O23: the integer forms by the step in natural numbers; the last one because `b xor 0xFF`
is the complement of `b`. -/
theorem ckStepSubtractsModulo256 : Obligations.CkStepSubtractsModulo256 := by
  intro a b
  have step := ckStep_toNat a b
  have complement : (b ^^^ 0xFF#8).toNat = 255 - b.toNat := by
    rw [show (0xFF#8 : Byte) = BitVec.allOnes 8 from rfl, BitVec.xor_allOnes, BitVec.toNat_not]
  refine ⟨by omega, by omega, step, BitVec.eq_of_toNat_eq ?_⟩
  rw [step, BitVec.toNat_add, complement]

theorem hdrChecksum_eq_foldl (h : HeaderFile) :
    hdrChecksum h = (checksumBytes h).foldl ckStep 0#8 := by
  rw [checksumBytes, List.foldl_map]
  rfl

@[simp] theorem checksumBytes_length (h : HeaderFile) : (checksumBytes h).length = 25 := by
  simp [checksumBytes]

/-- A run of steps takes off each byte and 1 for each byte. -/
theorem foldl_ckStep_add_sum (bs : List Byte) (a : Byte) :
    ((bs.foldl ckStep a).toNat + (bs.map BitVec.toNat).sum + bs.length) % 256 = a.toNat := by
  induction bs generalizing a with
  | nil => simpa using Nat.mod_eq_of_lt a.isLt
  | cons b bs ih =>
    have rest := ih (ckStep a b)
    rw [ckStep_toNat] at rest
    simp only [List.foldl_cons, List.map_cons, List.sum_cons, List.length_cons]
    omega

/-- The checksum is the one byte that brings the sum of the range, with 25 added, to a multiple of
256 (rule R63). -/
theorem hdrChecksum_eq_iff {h : HeaderFile} {b : Byte} :
    hdrChecksum h = b ↔ (b.toNat + checksumSum h + 25) % 256 = 0 := by
  have total : ((hdrChecksum h).toNat + checksumSum h + 25) % 256 = 0 := by
    have folded := foldl_ckStep_add_sum (checksumBytes h) 0#8
    rwa [← hdrChecksum_eq_foldl, checksumBytes_length] at folded
  constructor
  · rintro rfl
    exact total
  · intro other
    apply BitVec.eq_of_toNat_eq
    omega

theorem checksumSum_le (h : HeaderFile) : checksumSum h ≤ 6375 := by
  have bounded := List.sum_le_card_nsmul ((checksumBytes h).map BitVec.toNat) 255 fun n member => by
    obtain ⟨b, -, rfl⟩ := List.mem_map.mp member
    omega
  simpa [checksumSum] using bounded

theorem checksumSum_of_constant {h : HeaderFile} {b : Byte}
    (constant : ∀ c ∈ checksumBytes h, c = b) :
    checksumSum h = 25 * b.toNat := by
  have bytes : checksumBytes h = List.replicate 25 b :=
    List.eq_replicate_iff.mpr ⟨checksumBytes_length h, constant⟩
  rw [checksumSum, bytes, List.map_replicate, List.sum_replicate, smul_eq_mul]

theorem checksumSum_of_perm {h h' : HeaderFile} (perm : (checksumBytes h).Perm (checksumBytes h')) :
    checksumSum h = checksumSum h' :=
  (perm.map BitVec.toNat).sum_eq

/-- Equal sums have equal checksums. -/
theorem hdrChecksum_of_checksumSum {h h' : HeaderFile} (sum : checksumSum h = checksumSum h') :
    hdrChecksum h = hdrChecksum h' := by
  rw [hdrChecksum_eq_iff, sum, ← hdrChecksum_eq_iff]

/-- Settles O24: the checksum is fixed by the sum of the range; a byte exchanged with one from
outside the range changes it. -/
theorem checksumClosedForm : Obligations.ChecksumClosedForm := by
  refine ⟨fun h => ?closedForms, fun h zeros => ?zeros, fun h ones => ?ones,
    fun h h' perm => hdrChecksum_of_checksumSum (checksumSum_of_perm perm), ?exchange⟩
  case closedForms =>
    have total := hdrChecksum_eq_iff.mp (rfl : hdrChecksum h = hdrChecksum h)
    exact ⟨by omega, by omega, total, checksumSum_le h⟩
  case zeros => rw [hdrChecksum_eq_iff, checksumSum_of_constant zeros]; rfl
  case ones => rw [hdrChecksum_eq_iff, checksumSum_of_constant ones]; rfl
  case exchange =>
    exact ⟨((Vector.replicate 80 0#8).set 0x34 1#8).swap 0x34 0, _,
      (Vector.swap_perm (by decide) (by decide)).toList, by decide⟩

/-- Settles O25: the fold meets no other register. -/
theorem checksumReadsOnlyItsRange : Obligations.ChecksumReadsOnlyItsRange := by
  intro h h' agree
  have bytes : checksumBytes h = checksumBytes h' :=
    List.map_congr_left fun o member => by
      rw [Config.ckFirst_eq, Config.ckCount_eq, List.mem_range'_1] at member
      rw [Config.headerBase_eq]
      exact agree _ (by omega) (by omega)
  rw [hdrChecksum_eq_foldl, hdrChecksum_eq_foldl, bytes]

/-- Index 0x4D of the stored checksum lies outside the range (rule R65). -/
theorem hdrChecksum_set_stored (h : HeaderFile) (c : Byte) :
    hdrChecksum (h.setIfInBounds 0x4D c) = hdrChecksum h :=
  checksumReadsOnlyItsRange _ _ fun i _ _ => by
    rw [headerByte_set _ _ _ (by omega), if_neg (by omega)]

/-- Settles O26: ACC by the invariant; the one stored byte that matches is the checksum
itself, which does not change with the stored byte. -/
theorem checksumPortsInDone : Obligations.ChecksumPortsInDone := by
  constructor
  · intro s inv done
    obtain ⟨-, -, acc⟩ := (inv_iff_of_done done).mp inv
    exact ⟨_, dataPorts_of_done done, acc, rfl, beq_iff_eq⟩
  · intro h
    refine ⟨hdrChecksum h, fun c => ?_⟩
    rw [hdrChecksum_set_stored, headerByte_set _ _ _ (by omega), if_pos rfl, eq_comm]

end Sys2Proof.Machine

/-! PROOFS. The ROM size decoder: its function is one bit, whose place the code sets, and its rows,
a sampling and the two ports agree on it (rules R69 to R73). -/

namespace Sys2Proof.Machine

@[simp] theorem romSizeRecognised_iff (c : Byte) :
    romSizeRecognised c = true ↔ c.toNat ≤ 8 :=
  decide_eq_true_iff

theorem romSize_eq_ite (c : Byte) :
    romSize c = if c.toNat ≤ 8 then 32768#32 <<< c.toNat else 32768#32 := by
  simp [romSize]

/-- The bit of the size that is 1 (rule R73). -/
def romSizeBit (c : Byte) : Nat := if c.toNat ≤ 8 then 15 + c.toNat else 15

theorem romSizeBit_bounds (c : Byte) : 15 ≤ romSizeBit c ∧ romSizeBit c ≤ 23 := by
  unfold romSizeBit; split <;> omega

theorem romSize_eq_twoPow (c : Byte) : romSize c = BitVec.twoPow 32 (romSizeBit c) := by
  rw [romSize_eq_ite, romSizeBit]
  split
  · exact (BitVec.shiftLeft_add 1#32 15 c.toNat).symm
  · rfl

theorem romSize_toNat (c : Byte) : (romSize c).toNat = 2 ^ romSizeBit c := by
  obtain ⟨-, top⟩ := romSizeBit_bounds c
  rw [romSize_eq_twoPow, BitVec.toNat_twoPow_of_lt (by omega)]

theorem romSize_getLsbD (c : Byte) (k : Nat) :
    (romSize c).getLsbD k = true ↔ k = romSizeBit c := by
  obtain ⟨-, top⟩ := romSizeBit_bounds c
  rw [romSize_eq_twoPow, BitVec.getLsbD_twoPow]
  simp only [Bool.and_eq_true, decide_eq_true_eq]
  omega

/-- Settles O21: the size is two to the bit of its code, 15 for the fallback. -/
theorem romSizeIsThirtyTwoKiBShiftedOrFallback :
    Obligations.RomSizeIsThirtyTwoKiBShiftedOrFallback := by
  refine ⟨fun c => ⟨romSize_eq_ite c, ?value⟩, fun s d shown => ?port⟩
  case value =>
    rw [romSize_toNat, romSizeBit]
    split
    · exact Nat.pow_add 2 15 c.toNat
    · rfl
  case port =>
    have done : s.phase = .done := (dataPorts_isSome_iff s).mp (Option.isSome_of_eq_some shown)
    cases (dataPorts_of_done done).symm.trans shown
    rfl

/-- Settles O22: the ports by phase; the one bit of the size lies in [23:15]. -/
theorem romSizePorts : Obligations.RomSizePorts := by
  refine ⟨fun s done => ⟨_, dataPorts_of_done done, rfl, romSizeRecognised_iff _⟩,
    fun s => dataPorts_of_ne_done, fun c => ?_⟩
  obtain ⟨low, top⟩ := romSizeBit_bounds c
  refine ⟨fun k outside => ?_, romSizeBit c, low, top, romSize_getLsbD c⟩
  rw [← Bool.not_eq_true, romSize_getLsbD]
  omega

/-- In DONE a row of the decoder answers the size of the code it encodes to, and whether that code
is recognised. -/
theorem exec_rsc_of_done {i : Instr} {code : Byte} {s : State} (row : encode i = .rsc code)
    (done : s.phase = .done) :
    exec i s = .next { s with romSample := some ⟨romSize code, romSizeRecognised code⟩ } := by
  rw [exec_rsc row, answerRomSize_eq, if_pos done]
  rfl

/-- Settles O17: the size function computed at each of the nine codes. -/
theorem recognisedRowsAnswerTheirSize : Obligations.RecognisedRowsAnswerTheirSize :=
  fun _ done => ⟨
    exec_rsc_of_done (code := 0) rfl done, exec_rsc_of_done (code := 1) rfl done,
    exec_rsc_of_done (code := 2) rfl done, exec_rsc_of_done (code := 3) rfl done,
    exec_rsc_of_done (code := 4) rfl done, exec_rsc_of_done (code := 5) rfl done,
    exec_rsc_of_done (code := 6) rfl done, exec_rsc_of_done (code := 7) rfl done,
    exec_rsc_of_done (code := 8) rfl done⟩

/-- In DONE a row answers the fallback when its code is above 8 (rule R71). -/
theorem exec_rsc_fallback {i : Instr} {code : Byte} {s : State} (row : encode i = .rsc code)
    (above : 8 < code.toNat) (done : s.phase = .done) :
    exec i s = .next { s with romSample := some ⟨32768#32, false⟩ } := by
  have unknown : romSizeRecognised code = false := by
    rw [← Bool.not_eq_true, romSizeRecognised_iff]; omega
  rw [exec_rsc_of_done row done, romSize_eq_ite, if_neg (by omega), unknown]

/-- The fixed bits of a row, above its free ones, bound its codes from below. -/
theorem lt_toNat_append {m n k : Nat} (fixed : BitVec m) (free : BitVec n)
    (below : k < fixed.toNat <<< n) : k < (fixed ++ free).toNat := by
  rw [BitVec.toNat_append]
  exact below.trans_le Nat.left_le_or

/-- Settles O18: the fixed bits of each fallback row put its codes above 8. -/
theorem fallbackRowsAnswerTheFallback : Obligations.FallbackRowsAnswerTheFallback :=
  fun _ done => ⟨exec_rsc_fallback rfl (by decide) done,
    fun c => exec_rsc_fallback rfl (lt_toNat_append _ c (by decide)) done,
    fun c => exec_rsc_fallback rfl (lt_toNat_append _ c (by decide)) done,
    fun c => exec_rsc_fallback rfl (lt_toNat_append _ c (by decide)) done,
    fun c => exec_rsc_fallback rfl (lt_toNat_append _ c (by decide)) done,
    fun c => exec_rsc_fallback rfl (lt_toNat_append _ c (by decide)) done,
    fun c => exec_rsc_fallback rfl (lt_toNat_append _ c (by decide)) done⟩

/-- Settles O20: the row of the code in `HDR[0x48]` answers what the ports show, in DONE and outside
it. -/
theorem samplingAnswersThePorts : Obligations.SamplingAnswersThePorts := by
  intro s input
  have row := encode_decodeRomSizeCode (headerByte s.hdr 0x48)
  rw [step_eq_exec_of_sample input]
  by_cases done : s.phase = .done
  · rw [dataPorts_of_done done, exec_rsc_of_done row ((consume_phase s).trans done)]
    rfl
  · rw [dataPorts_of_ne_done done,
      romSizeRowsAnswerNothingOutsideDone _ _ _ row (consume_phase s ▸ done)]
    rfl

end Sys2Proof.Machine

/-! PROOFS. The status ports by number, and the field ports as a tiling of HDR (rules R74 to R77). -/

namespace Sys2Proof.Machine

/-- A slice lists the registers from its first index on. -/
theorem headerSlice_toList (h : HeaderFile) (first n : Nat) :
    (headerSlice h first n).toList = (List.range' first n).map (headerByte h) := by
  refine List.ext_getElem (by simp) fun k hk _ => ?_
  have inSlice : k < n := by simpa using hk
  simp [headerSlice_getElem h inSlice]

/-- The whole header is the slice of 80 registers from index 0. -/
theorem headerSlice_whole (h : HeaderFile) : headerSlice h 0 80 = h := by
  ext i hi
  rw [headerSlice_getElem h hi, Nat.zero_add, headerByte_eq_getElem h hi]

/-- The header lists the registers 0 to 79. -/
theorem headerFile_toList (h : HeaderFile) :
    h.toList = (List.range' 0 80).map (headerByte h) := by
  rw [← headerSlice_toList, headerSlice_whole]

/-- Settles O30: the ports have a value in DONE only, where each is a slice of HDR; the slices list
the indices 0 to 79 in order. -/
theorem fieldPortsTileTheHeader : Obligations.FieldPortsTileTheHeader := by
  refine fun s => ⟨dataPorts_of_ne_done, fun done => ⟨_, dataPorts_of_done done, fun _ _ => rfl,
    fun _ hk => headerSlice_getElem s.hdr hk, fun _ hk => headerSlice_getElem s.hdr hk,
    fun _ hk => headerSlice_getElem s.hdr hk, fun _ hk => headerSlice_getElem s.hdr hk,
    rfl, rfl, rfl, rfl, rfl, rfl, rfl, rfl, fun _ hk => headerSlice_getElem s.hdr hk, ?tiling⟩⟩
  case tiling =>
    simp only [dataPortsOf, headerSlice_toList, headerFile_toList]
    rfl

/-- Settles O27: the numbers of PHASE and CAUSE case by case; OFS is below `0x151`, so its nine bits
hold it. -/
theorem statusPortsShowPhaseOffsetAndCause :
    Obligations.StatusPortsShowPhaseOffsetAndCause := by
  refine fun s => ⟨?phase, ?ofs, ?cause⟩
  case phase => rw [State.statusPorts]; cases s.phase <;> rfl
  case ofs => exact Nat.mod_eq_of_lt (s.ofs.isLt.trans (by decide))
  case cause => rw [State.statusPorts]; cases s.cause <;> rfl

/-- Settles O32: the ports read the five elements of the unit only. -/
theorem outputsAreAFunctionOfTheUnit : Obligations.OutputsAreAFunctionOfTheUnit :=
  fun _ _ => sameOutputs_of_sameUnit

end Sys2Proof.Machine

/-! PROOFS. The one error entry, who writes CAUSE, and what never stops or disturbs a unit (rules R80,
R85, R86, R91, R93). -/

namespace Sys2Proof.Machine

/-- Settles O35: a fault needs an offset outside the range of the phase, which the table of rule R18
rules out. -/
theorem noStepFaultsUnderInv : Obligations.NoStepFaultsUnderInv :=
  fun _ r inv => step_ne_fault_of_inv inv r

/-- Settles O41: the two restarts clear CAUSE, only the effect `raise` sets it, and the others keep
it. -/
theorem onlyRestartEndAndAbortWriteCause : Obligations.OnlyRestartEndAndAbortWriteCause := by
  intro s t e
  cases step_effect e with
  | reset input next => exact .inl ⟨input, by simp [next]⟩
  | start input next => exact .inl ⟨input, by simp [next]⟩
  | drop w input cmd _ _ next =>
    exact .inr ⟨restarts_eq_false input (by simp [cmd]), .inl (by simp [next])⟩
  | capture w input cmd _ _ _ next =>
    exact .inr ⟨restarts_eq_false input (by simp [cmd]), .inl (by simp [next])⟩
  | raise w c input cmd phase next =>
    have stay : restarts s.presented = false :=
      restarts_eq_false input (by rcases cmd with ⟨cmd, -⟩ | ⟨cmd, -⟩ <;> simp [cmd])
    have cause : t.cause = c := by simp [next]
    exact .inr ⟨stay, .inr ⟨phase, by simp [next], w, input, by rwa [cause]⟩⟩
  | keep input same =>
    obtain ⟨-, -, -, cause, -⟩ := same
    exact .inr ⟨input, .inl cause.symm⟩

/-- A unit of several steps to a next list exactly when its own step answers a next state, and the
list then differs at its place only. -/
theorem stepUnit_next_iff {us vs : List State} {k : Nat} :
    stepUnit us k = some (.next vs) ↔
      ∃ s t, us[k]? = some s ∧ step s = .next t ∧ vs = us.set k t := by
  unfold stepUnit
  cases us[k]? with
  | none => simp
  | some s => cases e : step s <;> simp [e, eq_comm]

/-- Settles O51: stepping a unit writes the list at its place, with what its own step answers. -/
theorem unitsDoNotInteract : Obligations.UnitsDoNotInteract := by
  refine ⟨fun us vs k e => ?frame, fun us k s t unit own => ?locality⟩
  case frame =>
    obtain ⟨s, t, unit, own, rfl⟩ := stepUnit_next_iff.mp e
    obtain ⟨inside, -⟩ := List.getElem?_eq_some_iff.mp unit
    exact ⟨List.length_set, fun j other => List.getElem?_set_ne other.symm,
      s, t, unit, own, List.getElem?_set_self inside⟩
  case locality => exact stepUnit_next_iff.mpr ⟨s, t, unit, own, rfl⟩

/-- Settles O16: a raised cause shows as ERROR on the status ports, and the data ports have a value
in DONE only. -/
theorem raiseWritesPhaseAndCauseOnly : Obligations.RaiseWritesPhaseAndCauseOnly :=
  fun _ _ _ => ⟨rfl, rfl, dataPorts_of_ne_done (by simp)⟩

/-- Settles O43: taking out the NOPs changes no outcome, and here nothing is left. -/
theorem runningLoadWaitsForEver : Obligations.RunningLoadWaitsForEver := by
  intro s ps _ nops
  have nothingLeft : (ps.filter fun p => !isNopInput p) = [] :=
    List.filter_eq_nil_iff.mpr fun p hp => by simp [nops p hp]
  calc drive ps s = drive (ps.filter fun p => !isNopInput p) s := (nopsChangeNoOutcome s ps).symm
    _ = drive [] s := by rw [nothingLeft]
    _ = .next (s.present []) := drive_nil s

end Sys2Proof.Machine

/-! PROOFS. How fast OFS counts (rules R53, R108), and the reset step (rules R94, R95). -/

namespace Sys2Proof.Machine

/-- A step counts at most one byte. -/
theorem step_ofs_le {s t : State} (e : step s = .next t) : t.ofs.val ≤ s.ofs.val + 1 := by
  rcases onlyRestartAndPushChangeOffset s t e with kept | ⟨-, zero⟩ | ⟨-, -, -, -, counted⟩
  · rw [kept]
    exact Nat.le_succ _
  · rw [zero]
    exact Nat.zero_le _
  · exact counted.le

/-- So OFS counts no more bytes than there are inputs, by induction on them. -/
theorem drive_ofs_le {ps : List PortInput} :
    ∀ {s t : State}, drive ps s = .next t → t.ofs.val ≤ s.ofs.val + ps.length := by
  induction ps with
  | nil => intro s t e; cases e; exact le_rfl
  | cons p ps ih =>
    intro s t e
    obtain ⟨u, hu, rest⟩ := drive_cons_cases e
    have first : u.ofs.val ≤ s.ofs.val + 1 :=
      step_ofs_le (s := s.present (p :: ps)) hu
    have others : t.ofs.val ≤ u.ofs.val + ps.length := ih rest
    rw [List.length_cons]
    omega

/-- A restart leaves a state of the table of rule R18 with nothing counted. -/
theorem step_restart_inv {p : PortInput} (h : restarts p = true) (ps : List PortInput)
    (s : State) : ∃ u, step (s.present (p :: ps)) = .next u ∧ u.Inv ∧ u.ofs.val = 0 := by
  rcases step_restart h ps with answers | answers
  · exact ⟨_, answers s, resetStep_inv _, rfl⟩
  · exact ⟨_, answers s, beginLoad_inv _, rfl⟩

/-- Settles O45: DONE has counted 0x150 bytes, and after the restart each input counts at most
one. -/
theorem headerNotValidBeforeAllBytes : Obligations.HeaderNotValidBeforeAllBytes := by
  intro s t p ps restart short e
  obtain ⟨u, restarted, inv, zero⟩ := step_restart_inv restart ps s
  have rest : drive ps u = .next t := (drive_cons restarted).symm.trans e
  have counted : t.ofs.val ≤ u.ofs.val + ps.length := drive_ofs_le rest
  refine Bool.eq_false_iff.mpr fun valid => ?_
  have done : t.phase = .done := (headerValid_iff t).mp valid
  obtain ⟨full, -⟩ := (inv_iff_of_done done).mp (drive_keeps_inv inv rest)
  omega

/-- With reset asserted the command word is not looked at. -/
theorem step_of_reset {s : State} {w : CommandWord} (input : s.presented = .edge true w) :
    step s = .next s.consume.resetStep := by
  simp only [step, State.fetch, input]

/-- Settles O8: reset and START write the same but for the phase, and a PUSH is ignored in IDLE. -/
theorem resetStepWinsOverTheCommand : Obligations.ResetStepWinsOverTheCommand := by
  intro s w input
  have ignored : ∀ b : Byte,
      exec (.push b) s.consume.resetStep = .next s.consume.resetStep := fun b =>
    execPush_ignored (s := s.consume.resetStep) b (by simp) (by simp)
  exact ⟨s.consume.resetStep, step_of_reset input, rfl, rfl, rfl, rfl, consume_hdr s,
    ⟨rfl, rfl, rfl⟩, rfl, ignored⟩

end Sys2Proof.Machine
